-- ==== Sys2Proof/Word.lean ====
section
/-! DEFINITION. The word types of MX9-DDS: sample codes, sink frames and command codes. -/

namespace Sys2Proof

/-- A quantized sample code, `CODE_W` = 12 bits (R6, R29, R51). -/
abbrev Code := BitVec 12

/-- The sink frame, `FRAME_W` = 16 bits (R6, R79). -/
abbrev Frame := BitVec 16

/-- A command code on the command port, 8 bits (R71, R84). -/
abbrev CmdCode := BitVec 8

/-- `CODE_MAX`, the largest sample code, 2^12 − 1 (R6). -/
def codeMax : Nat := 4095

end Sys2Proof
end

