-- ==== Sys2Proof/Machine/Widths.lean ====
section
/-! DEFINITION. The least width of a register (R6), by bounded search. -/

namespace Sys2Proof.Machine

/-- Search for the least `w ≥ start` with `n < 2^w`, at most `fuel` steps on. -/
def leastWidthFrom (n : Nat) : Nat → Nat → Nat
  | 0, start => start
  | fuel + 1, start => if n < 2 ^ start then start else leastWidthFrom n fuel (start + 1)

/-- The least `w` with `n < 2^w`. -/
def leastWidth (n : Nat) : Nat := leastWidthFrom n n 0

end Sys2Proof.Machine
end

