-- ==== Sys2Proof/Config.lean ====
section
/-! DEFINITION. The configuration record `Cfg` of R6: every parameter the spec leaves OPEN, as plain data.
A model takes `Cfg` as an argument and may assume of it only R7; here it is carried by the state (log 1). -/

namespace Sys2Proof

/-- The implementation parameters (R6). `CODE_W`, `FRAME_W`, `PREFIX_W`, `FREQ_MIN`, `FREQ_MAX` and `W_F` have fixed
values and are the types' own; `W_D` is computed (log 6); the levels, slopes and bases are codes, natural numbers (R8, R166). -/
structure Cfg where
  /-- `SINK_PREFIX`, the frame's 4-bit command prefix (D22). -/
  sinkPrefix : Nat
  /-- `LEN_SINE` (N₁). -/
  lenSine : Nat
  /-- `LEN_SQUARE` (N₂). -/
  lenSquare : Nat
  /-- `LEN_SAW` (N₃). -/
  lenSaw : Nat
  /-- `LEN_TRI` (N₄). -/
  lenTri : Nat
  /-- `DEPTH_TRI`, the Triangle table's storage depth, default LEN_TRI (R6, D9). -/
  depthTri : Nat := lenTri
  /-- `W_C`, the width of CURSOR: R6's least `w` with `2^w ≥ max(LEN_*) + 5`, unless a configuration gives a width of its own,
  of which R7 item 2 asks only that it be no less (U12, log 6). -/
  cursorWidth : Nat := Machine.leastWidth (max (max lenSine lenSquare) (max lenSaw lenTri) + 4)
  /-- `DUTY_MIN`, in samples. -/
  dutyMin : Nat
  /-- `DUTY_MAX`, in samples. -/
  dutyMax : Nat
  /-- `DUTY_50`, the 50%-equivalent constant, in samples. -/
  duty50 : Nat
  /-- `DUTY_STEP`, in samples. -/
  dutyStep : Nat
  /-- `SQ_HIGH`. -/
  sqHigh : Nat
  /-- `SQ_LOW`. -/
  sqLow : Nat
  /-- `SINE_AMPL`; only the sine formula of R161 uses it. -/
  sineAmpl : Nat
  /-- `SINE_DC`; only the sine formula of R161 uses it. -/
  sineDc : Nat
  /-- `SINE_ROM`, the Sine table's contents. -/
  sineRom : List Nat
  /-- `SAW_SLOPE`, codes per index. -/
  sawSlope : Nat
  /-- `TRI_BP1`, the last index of the ascending segment. -/
  triBp1 : Nat
  /-- `TRI_BP2`, the first index of the descending segment. -/
  triBp2 : Nat
  /-- `TRI_UP_BASE`. -/
  triUpBase : Nat
  /-- `TRI_UP_SLOPE`. -/
  triUpSlope : Nat
  /-- `TRI_DN_BASE`. -/
  triDnBase : Nat
  /-- `TRI_DN_SLOPE`. -/
  triDnSlope : Nat
  /-- `ADVANCE_ON_DROP` (R105, D20), default true. -/
  advanceOnDrop : Bool := true
  /-- `TICK_PERIOD`, OPEN; no rule depends on it (R201, R240, D27). A natural number, in a unit left open: DESIGN CHOICE
  (log 18). -/
  tickPeriod : Nat
  deriving DecidableEq, Repr

/-- `BASE_FREQ`, the nominal output frequency at FrequencyIndex 1 in hertz (R6); timing only, no rule uses it (R76). -/
def baseFreq : Nat := 100

/-- The spec's illustrative configuration CFG_T (95_test_vectors.md section 1); DEPTH_TRI = 8 and W_C = 5 are R6's defaults.
DESIGN CHOICE, unsafe (log 1): it is the configuration `State.reset` carries; it is no claim about the hardware's constants and no statement rests on it. Its
`TICK_PERIOD` is 'open, unused' in the spec's table: the 0 here is the model's, DESIGN CHOICE (log 18). -/
def Cfg.illustrative : Cfg where
  sinkPrefix := 0x3
  lenSine := 8
  lenSquare := 20
  lenSaw := 6
  lenTri := 8
  dutyMin := 2
  dutyMax := 18
  duty50 := 10
  dutyStep := 2
  sqHigh := 3000
  sqLow := 500
  sineAmpl := 1000
  sineDc := 2000
  sineRom := [2000, 3000, 2000, 1000, 2000, 3000, 2000, 1000]
  sawSlope := 500
  triBp1 := 3
  triBp2 := 5
  triUpBase := 0
  triUpSlope := 1000
  triDnBase := 3000
  triDnSlope := 1000
  tickPeriod := 0

end Sys2Proof
end

