-- ==== Sys2Proof/Syntax.lean ====
section
/-! DEFINITION. The operations of the block, one constructor per row of spec/opcode_table.json, their operands, and the
events that appear on the block's inputs (R11, R13, R81). -/

namespace Sys2Proof

/-- Shape, the four waveform tables (R23), in the order of their codes. -/
inductive Shape where
  | sine
  | square
  | triangle
  | sawtooth
  deriving DecidableEq, Repr

/-- The direction operand of ADJDUTY (R77): `plus` is "+1 step", `minus` is "−1 step". -/
inductive Direction where
  | minus
  | plus
  deriving DecidableEq, Repr

/-- The operations (R11). -/
inductive Instr where
  /-- SETSHAPE s (R131). -/
  | setshape (s : Shape)
  /-- SETFREQ n (R132); the operand has 3 bits, of which 1..5 are legal (R76). -/
  | setfreq (n : BitVec 3)
  /-- ADJDUTY d (R133). -/
  | adjduty (d : Direction)
  /-- RSTDUTY (R135). -/
  | rstduty
  /-- RSTALL (R136). -/
  | rstall
  /-- Key '0' (R140). -/
  | key0
  /-- Key '1' (R141). -/
  | key1
  /-- Key '2' (R142). -/
  | key2
  /-- Key '3' (R143). -/
  | key3
  /-- Key '4' (R144). -/
  | key4
  /-- Key '5' (R145). -/
  | key5
  /-- Key '6' (R146). -/
  | key6
  /-- Key '7' (R147). -/
  | key7
  /-- Key '8' (R148). -/
  | key8
  /-- Key '9' (R149). -/
  | key9
  /-- Key '*' (R150). -/
  | keystar
  /-- Key '#' (R151). -/
  | keyhash
  /-- RESET (R220). -/
  | reset
  /-- INIT with the outcome of bring-up (R170). -/
  | init (initOk : Bool)
  /-- TIMER_FIRE (R195). -/
  | timerFire
  /-- TICK with the sink's readiness at this tick (R107, R182). -/
  | tick (rdy : Bool)
  /-- TRYSEND of a 12-bit code, with the sink's readiness (R181). -/
  | trysend (v : Code) (rdy : Bool)
  /-- BUILDSINE (R161). -/
  | buildsine
  /-- BUILDSQUARE with a threshold, a natural number (R162). -/
  | buildsquare (t : Nat)
  /-- BUILDSAW (R163). -/
  | buildsaw
  /-- BUILDTRI (R164). -/
  | buildtri
  deriving DecidableEq, Repr

/-- What one agent does to the block: one event on its input lines (R13, R81), with the input it carries. -/
inductive Event where
  /-- Line `rst`. -/
  | rst
  /-- Line `init_go`, with `init_ok`. -/
  | initGo (initOk : Bool)
  /-- Line `timer_evt`. -/
  | timerEvt
  /-- The dispatcher's turn, with `sink_ready` as it sees it; TICK has no line of its own. -/
  | serviceTick (sinkReady : Bool)
  /-- `cmd_valid` with `cmd_code`. -/
  | cmd (code : CmdCode)
  deriving DecidableEq, Repr

/-- The agents (R12). The sink performs no operation: it answers TRYSEND, its readiness an input of TICK. -/
inductive Agent where
  | timer
  | dispatcher
  | commandSource
  | sink
  | environment
  deriving DecidableEq, Repr

/-- The agent that performs an event (R12, R200). For INIT, DESIGN CHOICE: the environment, which supplies `init_ok`; the spec
names no agent that performs it (log 20). -/
def Event.agent : Event → Agent
  | .rst => .environment
  | .initGo _ => .environment
  | .timerEvt => .timer
  | .serviceTick _ => .dispatcher
  | .cmd _ => .commandSource

end Sys2Proof
end

