-- ==== Sys2Proof/WellFormed.lean ====
section
/-! DEFINITION. The checks: the nine items of R7 on a configuration, and which operations the outside can present. -/

namespace Sys2Proof

namespace Cfg

/-- R7 item 1. -/
def lengthsOk (c : Cfg) : Bool :=
  decide (1 ≤ c.lenSine) && decide (1 ≤ c.lenSquare) && decide (1 ≤ c.lenSaw) && decide (1 ≤ c.lenTri)
    && decide (c.lenTri ≤ c.depthTri)

/-- R7 item 2, on `max(LEN_SINE, LEN_SQUARE, LEN_SAW, LEN_TRI) + 5`. -/
def cursorWidthOk (c : Cfg) : Bool :=
  decide (max (max c.lenSine c.lenSquare) (max c.lenSaw c.lenTri) + 5 ≤ 2 ^ c.cursorWidth)

/-- R7 item 3. -/
def dutyRangeOk (c : Cfg) : Bool :=
  decide (c.dutyMin ≤ c.duty50) && decide (c.duty50 ≤ c.dutyMax) && decide (c.dutyMax ≤ c.lenSquare)
    && decide (1 ≤ c.dutyStep)

/-- R7 item 4. -/
def dutyAlignedOk (c : Cfg) : Bool :=
  decide ((c.duty50 - c.dutyMin) % c.dutyStep = 0) && decide ((c.dutyMax - c.duty50) % c.dutyStep = 0)

/-- R7 item 5. -/
def squareLevelsOk (c : Cfg) : Bool :=
  decide (c.sqHigh ≤ codeMax) && decide (c.sqLow ≤ codeMax)

/-- R7 item 6. -/
def sineRomOk (c : Cfg) : Bool :=
  decide (c.sineRom.length = c.lenSine) && c.sineRom.all (fun v => decide (v ≤ codeMax))

/-- R7 item 7. -/
def sawOk (c : Cfg) : Bool :=
  decide (c.sawSlope * (c.lenSaw - 1) ≤ codeMax)

/-- R7 item 8: the breakpoints, and every value the two segments of R164 produce; the descending segment is a subtraction of
natural numbers, so "lies in 0..CODE_MAX" also says that it does not go below zero. -/
def triangleOk (c : Cfg) : Bool :=
  decide (c.triBp1 < c.triBp2) && decide (c.triBp2 < c.depthTri)
    && (List.range (c.triBp1 + 1)).all (fun i => decide (c.triUpBase + c.triUpSlope * i ≤ codeMax))
    && (List.range (c.depthTri - c.triBp2)).all
        (fun k => decide (c.triDnSlope * k ≤ c.triDnBase) && decide (c.triDnBase - c.triDnSlope * k ≤ codeMax))

/-- R7 item 9. -/
def sinkPrefixOk (c : Cfg) : Bool :=
  decide (c.sinkPrefix < 16)

/-- Well-formedness of a configuration (R7): the nine items. One that fails it is refused (R7, U12). -/
def wf (c : Cfg) : Bool :=
  c.lengthsOk && c.cursorWidthOk && c.dutyRangeOk && c.dutyAlignedOk && c.squareLevelsOk && c.sineRomOk && c.sawOk
    && c.triangleOk && c.sinkPrefixOk

end Cfg

/-- An operation that stands on the block's inputs on its own: a command (a code), RESET, INIT, TIMER_FIRE (a line), or
TICK (the dispatcher's turn). TRYSEND and the four builds are performed only inside other operations (R11, R81). The operands
themselves are checked by their types. -/
def Instr.wf : Instr → Bool
  | .setshape _ => true
  | .setfreq _ => true
  | .adjduty _ => true
  | .rstduty => true
  | .rstall => true
  | .key0 => true
  | .key1 => true
  | .key2 => true
  | .key3 => true
  | .key4 => true
  | .key5 => true
  | .key6 => true
  | .key7 => true
  | .key8 => true
  | .key9 => true
  | .keystar => true
  | .keyhash => true
  | .reset => true
  | .init _ => true
  | .timerFire => true
  | .tick _ => true
  | .trysend _ _ => false
  | .buildsine => false
  | .buildsquare _ => false
  | .buildsaw => false
  | .buildtri => false

end Sys2Proof
end

