-- ==== Sys2Proof/Decode.lean ====
section
/-! DEFINITION. Decoding: a pure function of the 8-bit command code, total on all 256 codes (R70 to R78, R84, U6), extended to
the event lines (R81); and the encoder, written from the same tables. -/

namespace Sys2Proof

/-! The operand fields (R75 to R77). -/

/-- The shape code (R23, R75). -/
def Shape.code : Shape → BitVec 2
  | .sine => 0
  | .square => 1
  | .triangle => 2
  | .sawtooth => 3

/-- The shape a 2-bit code names; all four codes are legal (R23). -/
def Shape.ofCode (ss : BitVec 2) : Shape :=
  if ss = 0 then .sine else if ss = 1 then .square else if ss = 2 then .triangle else .sawtooth

/-- The direction bit (R77). -/
def Direction.code : Direction → BitVec 1
  | .minus => 0
  | .plus => 1

/-- The direction a bit names (R77). -/
def Direction.ofCode (d : BitVec 1) : Direction :=
  if d = 1 then .plus else .minus

/-- Bits 1:0, the operand `ss` of SETSHAPE (R73). -/
def fieldShape (c : CmdCode) : Shape := Shape.ofCode (c.extractLsb' 0 2)

/-- Bits 2:0, the operand `nnn` of SETFREQ (R73). -/
def fieldFreq (c : CmdCode) : BitVec 3 := c.extractLsb' 0 3

/-- Bit 0, the operand `d` of ADJDUTY (R73). -/
def fieldDirection (c : CmdCode) : Direction := Direction.ofCode (c.extractLsb' 0 1)

/-! The command tables (R73, R74). -/

/-- A row of the command tables: the codes `c` with `c & mask = value`, and the operation they name. -/
structure CmdRow where
  mask : CmdCode
  value : CmdCode
  build : CmdCode → Instr

/-- A row matches a code. -/
def CmdRow.accepts (r : CmdRow) (c : CmdCode) : Bool := decide (c &&& r.mask = r.value)

/-- Format X, direct operations (R73). -/
def formatXRows : List CmdRow :=
  [⟨0xFC, 0x80, fun c => .setshape (fieldShape c)⟩,
   ⟨0xF8, 0x90, fun c => .setfreq (fieldFreq c)⟩,
   ⟨0xFE, 0xA0, fun c => .adjduty (fieldDirection c)⟩,
   ⟨0xFF, 0xB0, fun _ => .rstduty⟩,
   ⟨0xFF, 0xC0, fun _ => .rstall⟩]

/-- Format K, key codes (R74): the characters' ASCII codes (D17, log 16). -/
def formatKRows : List CmdRow :=
  [⟨0xFF, 0x30, fun _ => .key0⟩,
   ⟨0xFF, 0x31, fun _ => .key1⟩,
   ⟨0xFF, 0x32, fun _ => .key2⟩,
   ⟨0xFF, 0x33, fun _ => .key3⟩,
   ⟨0xFF, 0x34, fun _ => .key4⟩,
   ⟨0xFF, 0x35, fun _ => .key5⟩,
   ⟨0xFF, 0x36, fun _ => .key6⟩,
   ⟨0xFF, 0x37, fun _ => .key7⟩,
   ⟨0xFF, 0x38, fun _ => .key8⟩,
   ⟨0xFF, 0x39, fun _ => .key9⟩,
   ⟨0xFF, 0x2A, fun _ => .keystar⟩,
   ⟨0xFF, 0x23, fun _ => .keyhash⟩]

/-- Every row a command code can match. -/
def cmdRows : List CmdRow := formatXRows ++ formatKRows

/-- What an input decodes to: an operation, or a reserved command code, rejected by name (R78). -/
inductive Decoded where
  | instr (i : Instr)
  | reserved (code : CmdCode)
  deriving DecidableEq, Repr

/-- The meaning of a command code (R71, R73, R74, R78). -/
def decodeCmd (c : CmdCode) : Decoded :=
  match cmdRows.find? (fun r => r.accepts c) with
  | some r => .instr (r.build c)
  | none => .reserved c

/-- The meaning of an event on the inputs (R81). -/
def decodeEvent : Event → Decoded
  | .rst => .instr .reset
  | .initGo ok => .instr (.init ok)
  | .timerEvt => .instr .timerFire
  | .serviceTick rdy => .instr (.tick rdy)
  | .cmd code => decodeCmd code

/-! The encoder, from the layouts of R71, R73 and R74. -/

/-- Format X: `{1, op[2:0], arg[3:0]}` (R73). -/
def formatX (op : BitVec 3) (arg : BitVec 4) : CmdCode := 1#1 ++ op ++ arg

/-- Format K: `{0, char[6:0]}` (R74). -/
def formatK (ch : BitVec 7) : CmdCode := 0#1 ++ ch

/-- The event that presents an operation; none for TRYSEND and the builds, which have no line and no code (R81). -/
def encode : Instr → Option Event
  | .setshape s => some (.cmd (formatX 0 (0#2 ++ s.code)))
  | .setfreq n => some (.cmd (formatX 1 (0#1 ++ n)))
  | .adjduty d => some (.cmd (formatX 2 (0#3 ++ d.code)))
  | .rstduty => some (.cmd (formatX 3 0))
  | .rstall => some (.cmd (formatX 4 0))
  | .key0 => some (.cmd (formatK 0x30))
  | .key1 => some (.cmd (formatK 0x31))
  | .key2 => some (.cmd (formatK 0x32))
  | .key3 => some (.cmd (formatK 0x33))
  | .key4 => some (.cmd (formatK 0x34))
  | .key5 => some (.cmd (formatK 0x35))
  | .key6 => some (.cmd (formatK 0x36))
  | .key7 => some (.cmd (formatK 0x37))
  | .key8 => some (.cmd (formatK 0x38))
  | .key9 => some (.cmd (formatK 0x39))
  | .keystar => some (.cmd (formatK 0x2A))
  | .keyhash => some (.cmd (formatK 0x23))
  | .reset => some .rst
  | .init ok => some (.initGo ok)
  | .timerFire => some .timerEvt
  | .tick rdy => some (.serviceTick rdy)
  | .trysend _ _ => none
  | .buildsine => none
  | .buildsquare _ => none
  | .buildsaw => none
  | .buildtri => none

/-- The instruction the decoder reads from a word of `nbits` bits. A command code always has 8 bits (R84); nothing else the
block decodes has a word (R70, R81, log 13). -/
def decodeTableWord (nbits w : Nat) : Option Instr :=
  if nbits = 8 then
    match decodeCmd (BitVec.ofNat 8 w) with
    | .instr i => some i
    | .reserved _ => none
  else none

end Sys2Proof
end

