-- ==== Sys2Proof/Machine/State.lean ====
section
/-! DEFINITION. The state of the block (R20 to R35), its reset value (R34), and the reasons a step stops. -/

namespace Sys2Proof.Machine

open Sys2Proof

/-- PHASE, the life cycle (R27); its code 3 is unused, so the type has three values (U7, log 14). -/
inductive Phase where
  | uninit
  | run
  | halt
  deriving DecidableEq, Repr

/-- FREQ, a frequency index in 1..5 (R24); 0, 6 and 7 are never stored, so the type has five values (U7, log 14). -/
inductive FreqIndex where
  | one
  | two
  | three
  | four
  | five
  deriving DecidableEq, Repr

/-- An element of the output trace, one per TICK (R33). -/
inductive TraceEvent where
  | sent (f : Frame)
  | dropped
  deriving DecidableEq, Repr

/-- The contents of one waveform table: (index, code) pairs in the canonical form `Memory.wf`. An index not listed reads as
code 0, what every entry holds after RESET (R34). -/
abbrev Memory := List (Nat × Code)

/-- Why the machine stops with a fault. -/
inductive Fault where
  /-- A LUT access at an index at or past the table's depth (R53), raised by `lutRead`, `lutWrite`, `memRead` and `memWrite`.
  Safe: a fault of the model, not a behaviour of the block; no operation reaches it (log 15). -/
  | lutUnmapped (sel : Shape) (idx : Nat)
  /-- An access through a flat address of more than `2 + W_C` bits, which is no LUT address (R52, R84), raised by `memRead` and
  `memWrite`. Safe: a fault of the model, which no operation reaches (log 19). -/
  | lutAddrTooWide (addr : Nat)
  deriving DecidableEq, Repr

/-- Why an operation is given no meaning. -/
inductive Refusal where
  /-- The operation has no meaning in the model yet, raised by `exec`'s refused arms. Safe. -/
  | notModelled (mnemonic : String)
  /-- The configuration fails R7, so the rules give the operation no meaning (R7, U12), raised by `perform` for every operation.
  Safe (log 10). -/
  | configIllFormed
  deriving DecidableEq, Repr

/-- The state: the record of R35, then the model's own two fields. -/
structure State where
  /-- PHASE (R27). -/
  phase : Phase
  /-- SHAPE (R23). -/
  shape : Shape
  /-- FREQ (R24). -/
  freq : FreqIndex
  /-- DUTY, in samples of the Square table (R25). -/
  duty : Nat
  /-- CURSOR, the phase accumulator (R21). -/
  cursor : Nat
  /-- TICK_PEND (R26). -/
  tickPend : Bool
  /-- SINE[] (R29). -/
  sine : Memory
  /-- SQUARE[] (R29, R30). -/
  square : Memory
  /-- TRI[] (R29). -/
  tri : Memory
  /-- SAW[] (R29). -/
  saw : Memory
  /-- The output trace, oldest first (R33). -/
  trace : List TraceEvent
  /-- The model's own: the configuration, fixed for the machine (R6, R35, log 1). -/
  cfg : Cfg
  /-- The model's own: the events the agents perform next, oldest first (R11, R35, log 2). -/
  schedule : List Event
  deriving DecidableEq, Repr

/-- The reset state of a block of configuration `c` (R34), with nothing scheduled. -/
def State.resetOf (c : Cfg) : State where
  phase := .uninit
  shape := .square
  freq := .one
  duty := c.duty50
  cursor := 0
  tickPend := false
  sine := []
  square := []
  tri := []
  saw := []
  trace := []
  cfg := c
  schedule := []

/-- The machine right after reset (R34). DESIGN CHOICE: its configuration is CFG_T (log 1) and nothing is scheduled (log 2). -/
def State.reset : State := State.resetOf Cfg.illustrative

end Sys2Proof.Machine
end

