-- ==== Sys2Proof/Machine/Operands.lean ====
section
/-! DEFINITION. Operand forms, register codes, LUT address generation, the values the builds write, and the frame. -/

namespace Sys2Proof.Machine

open Sys2Proof

/-- The code of PHASE (R20, R27). -/
def Phase.code : Phase → BitVec 2
  | .uninit => 0
  | .run => 1
  | .halt => 2

/-- The index FREQ holds (R24, R76). -/
def FreqIndex.toNat : FreqIndex → Nat
  | .one => 1
  | .two => 2
  | .three => 3
  | .four => 4
  | .five => 5

/-- The 3 bits FREQ stores (R24). -/
def FreqIndex.code (n : FreqIndex) : BitVec 3 := BitVec.ofNat 3 n.toNat

/-- The frequency index the operand `nnn` names: 1..5 are legal, 0, 6 and 7 are not (R76, R132). -/
def FreqIndex.ofOperand (n : BitVec 3) : Option FreqIndex :=
  if n = 1 then some .one
  else if n = 2 then some .two
  else if n = 3 then some .three
  else if n = 4 then some .four
  else if n = 5 then some .five
  else none

/-- The nominal frequency of a preset in hertz (R76, R240); no rule uses it. -/
def FreqIndex.nominalHz (n : FreqIndex) : Nat := n.toNat * baseFreq

end Sys2Proof.Machine

namespace Sys2Proof.Cfg

/-- `LEN[s]`, the period-length constant of a shape (R10). -/
def len (c : Cfg) : Shape → Nat
  | .sine => c.lenSine
  | .square => c.lenSquare
  | .triangle => c.lenTri
  | .sawtooth => c.lenSaw

/-- The depth of a table, the number of its mapped entries (R29, R52). -/
def depth (c : Cfg) : Shape → Nat
  | .sine => c.lenSine
  | .square => c.lenSquare
  | .triangle => c.depthTri
  | .sawtooth => c.lenSaw

/-- `M`, the greatest period length (R109). -/
def maxLen (c : Cfg) : Nat := max (max c.lenSine c.lenSquare) (max c.lenSaw c.lenTri)

/-- `W_D`, the least width that holds `max(DUTY_MAX, LEN_SQUARE)` (R6, D7). -/
def dutyWidth (c : Cfg) : Nat := Machine.leastWidth (max c.dutyMax c.lenSquare)

/-- The value R6 gives `W_C`, the least `w` with `2^w ≥ max(LEN_*) + 5`; R7 item 2 says that `W_C` is no less (log 6). -/
def leastCursorWidth (c : Cfg) : Nat := Machine.leastWidth (c.maxLen + 4)

end Sys2Proof.Cfg

namespace Sys2Proof.Machine

open Sys2Proof

/-- TICK's step 2: a cursor at or past the length is reset to 0, not reduced modulo the length (R102, C1). -/
def boundCheck (len c : Nat) : Nat := if len ≤ c then 0 else c

/-- The index the next TICK fetches (R22, R111). -/
def State.fetchIndex (s : State) : Nat := boundCheck (s.cfg.len s.shape) s.cursor

/-- The ticks of one pass through a table of length `len` at step `n`: `ceil(len / n)` (R110). -/
def passTicks (len n : Nat) : Nat := (len + n - 1) / n

/-- The flat LUT address `{sel[1:0], idx[W_C−1:0]}` (R52, R80); it names an entry whose index has at most `W_C` bits (log 5). -/
def lutAddr (c : Cfg) (sh : Shape) (idx : Nat) : Nat := sh.code.toNat * 2 ^ c.cursorWidth + idx

/-- A flat address has `2 + W_C` bits (R52, R84). The model writes one as a natural number; DESIGN CHOICE: a wider number names
no entry, and `memRead` and `memWrite` refuse it (log 19). -/
def addrFits (c : Cfg) (addr : Nat) : Bool := decide (addr < 2 ^ (2 + c.cursorWidth))

/-- The table select of a flat address, its two bits above the index (R52). Used only where `addrFits` holds (log 19). -/
def addrSel (c : Cfg) (addr : Nat) : Shape := Shape.ofCode (BitVec.ofNat 2 (addr / 2 ^ c.cursorWidth))

/-- The index of a flat address, its low `W_C` bits (R52). -/
def addrIdx (c : Cfg) (addr : Nat) : Nat := addr % 2 ^ c.cursorWidth

/-- A natural number as a 12-bit entry. Under R7 every value a build writes is at most `CODE_MAX`, so nothing is cut off, and no
operation is performed under a configuration that fails R7 (R183, U1, log 10). -/
def codeOf (n : Nat) : Code := BitVec.ofNat 12 n

/-- Entry `i` of BUILDSINE (R161). -/
def sineEntry (c : Cfg) (i : Nat) : Nat := c.sineRom.getD i 0

/-- Entry `i` of BUILDSQUARE with threshold `t` (R162). -/
def squareEntry (c : Cfg) (t i : Nat) : Nat := if i < t then c.sqHigh else c.sqLow

/-- Entry `i` of BUILDSAW (R163). -/
def sawEntry (c : Cfg) (i : Nat) : Nat := c.sawSlope * i

/-- Entry `i` of BUILDTRI's ascending segment (R164). -/
def triUpEntry (c : Cfg) (i : Nat) : Nat := c.triUpBase + c.triUpSlope * i

/-- Entry `i` of BUILDTRI's descending segment (R164). -/
def triDownEntry (c : Cfg) (i : Nat) : Nat := c.triDnBase - c.triDnSlope * (i - c.triBp2)

/-- The sink frame, `(SINK_PREFIX << 12) | code` (R79). -/
def frameOf (c : Cfg) (v : Code) : Frame := (BitVec.ofNat 16 c.sinkPrefix <<< 12) ||| v.setWidth 16

end Sys2Proof.Machine
end

