-- ==== Sys2Proof/Machine/Ops.lean ====
section
/-! DEFINITION. The operations every meaning is made of: register writes, table memory, the LUT, the builds, the sink, Halt and
reset, and how an operation's result becomes a step's outcome. -/

namespace Sys2Proof.Machine

open Sys2Proof

/-! Table memory (R29, R51): a sparse list in canonical form, an unlisted index reading as 0 (R34). -/

/-- The code at an index. -/
def Memory.read : Memory → Nat → Code
  | [], _ => 0
  | (k, v) :: m, i => if i = k then v else Memory.read m i

/-- Put a code at an index, keeping the list sorted and free of zero codes. -/
def Memory.write : Memory → Nat → Code → Memory
  | [], i, v => if v = 0 then [] else [(i, v)]
  | (k, w) :: m, i, v =>
    if i < k then (if v = 0 then (k, w) :: m else (i, v) :: (k, w) :: m)
    else if i = k then (if v = 0 then m else (i, v) :: m)
    else (k, w) :: Memory.write m i v

/-- The canonical form: indices strictly rising, no code 0. -/
def Memory.wf : Memory → Bool
  | [] => true
  | (k, v) :: m => decide (v ≠ 0) && m.all (fun e => decide (k < e.1)) && Memory.wf m

/-- Every listed index is below `n`. -/
def Memory.below (m : Memory) (n : Nat) : Bool := m.all (fun e => decide (e.1 < n))

/-! Register and table accessors. -/

/-- `PHASE <- p`. -/
def State.setPhase (s : State) (p : Phase) : State := { s with phase := p }
/-- `SHAPE <- sh`. -/
def State.setShape (s : State) (sh : Shape) : State := { s with shape := sh }
/-- `FREQ <- n`. -/
def State.setFreq (s : State) (n : FreqIndex) : State := { s with freq := n }
/-- `DUTY <- d`. -/
def State.setDuty (s : State) (d : Nat) : State := { s with duty := d }
/-- `CURSOR <- c`. -/
def State.setCursor (s : State) (c : Nat) : State := { s with cursor := c }
/-- `TICK_PEND <- b`. -/
def State.setTickPend (s : State) (b : Bool) : State := { s with tickPend := b }
/-- `emit e`: append to the output trace (R10, R33). -/
def State.emit (s : State) (e : TraceEvent) : State := { s with trace := s.trace ++ [e] }
/-- What the agents do next (log 2). -/
def State.setSchedule (s : State) (l : List Event) : State := { s with schedule := l }

/-- The table of a shape: the sample mux (R52, R103). -/
def State.table (s : State) : Shape → Memory
  | .sine => s.sine
  | .square => s.square
  | .triangle => s.tri
  | .sawtooth => s.saw

/-- Replace the table of a shape. -/
def State.setTable (s : State) (sh : Shape) (m : Memory) : State :=
  match sh with
  | .sine => { s with sine := m }
  | .square => { s with square := m }
  | .triangle => { s with tri := m }
  | .sawtooth => { s with saw := m }

/-! The LUT (R10, R50 to R54, R59). -/

/-- `LutRead(s, i)`; an unmapped index faults (R53, log 15). -/
def lutRead (s : State) (sh : Shape) (i : Nat) : Except Fault Code :=
  if i < s.cfg.depth sh then .ok ((s.table sh).read i) else .error (.lutUnmapped sh i)

/-- `LutWrite(s, i, v)`; an unmapped index faults (R53, log 15). -/
def lutWrite (s : State) (sh : Shape) (i : Nat) (v : Code) : Except Fault State :=
  if i < s.cfg.depth sh then .ok (s.setTable sh ((s.table sh).write i v)) else .error (.lutUnmapped sh i)

/-- `MemRead(addr, 1)`, the read through the flat address (R10, R52); a number of more than `2 + W_C` bits faults (log 19). -/
def memRead (s : State) (addr : Nat) : Except Fault Code :=
  if addrFits s.cfg addr then lutRead s (addrSel s.cfg addr) (addrIdx s.cfg addr) else .error (.lutAddrTooWide addr)

/-- `MemWrite(addr, 1, v)` (R10, R52); a number of more than `2 + W_C` bits faults (log 19). -/
def memWrite (s : State) (addr : Nat) (v : Code) : Except Fault State :=
  if addrFits s.cfg addr then lutWrite s (addrSel s.cfg addr) (addrIdx s.cfg addr) v else .error (.lutAddrTooWide addr)

/-- `for i in first .. first + count − 1: LutWrite(sh, i, value i)`. -/
def lutFill (sh : Shape) (value : Nat → Code) (first : Nat) : Nat → State → Except Fault State
  | 0, s => .ok s
  | count + 1, s =>
    match lutFill sh value first count s with
    | .ok t => lutWrite t sh (first + count) (value (first + count))
    | .error f => .error f

/-! The builds (R160 to R165). -/

/-- BUILDSINE (R161). -/
def buildSine (s : State) : Except Fault State :=
  lutFill .sine (fun i => codeOf (sineEntry s.cfg i)) 0 s.cfg.lenSine s

/-- BUILDSQUARE t (R162); the argument is applied as given (R165). -/
def buildSquare (t : Nat) (s : State) : Except Fault State :=
  lutFill .square (fun i => codeOf (squareEntry s.cfg t i)) 0 s.cfg.lenSquare s

/-- BUILDSAW (R163). -/
def buildSaw (s : State) : Except Fault State :=
  lutFill .sawtooth (fun i => codeOf (sawEntry s.cfg i)) 0 s.cfg.lenSaw s

/-- BUILDTRI (R164): the ascending segment `0 .. TRI_BP1`, then the descending one `TRI_BP2 .. DEPTH_TRI − 1`; the entries
strictly between are not written. -/
def buildTri (s : State) : Except Fault State :=
  match lutFill .triangle (fun i => codeOf (triUpEntry s.cfg i)) 0 (s.cfg.triBp1 + 1) s with
  | .ok t =>
    lutFill .triangle (fun i => codeOf (triDownEntry s.cfg i)) s.cfg.triBp2 (s.cfg.depthTri - s.cfg.triBp2) t
  | .error f => .error f

/-! The sink (R180 to R185). -/

/-- TRYSEND(v, rdy): the trace is extended, and `accepted` is returned; nothing stores it (R181, R28). -/
def trySend (s : State) (v : Code) (rdy : Bool) : State × Bool :=
  if rdy then (s.emit (.sent (frameOf s.cfg v)), true) else (s.emit .dropped, false)

/-! Halt and reset: the one exception of the block and the only way out of it (R191, R198, R199). -/

/-- `raise Halt` (R10, R191): PHASE becomes HALT. Nothing is saved and control goes to no address (R190, R198). -/
def raiseHalt (s : State) : State := s.setPhase .halt

/-- RESET (R220): the reset state of R34. The configuration is fixed and the agents' later choices stay (log 11). -/
def resetState (s : State) : State := (State.resetOf s.cfg).setSchedule s.schedule

/-! From an operation's result to the outcome of a step. -/

/-- Perform an operation: under a configuration that fails R7 it has no meaning and is refused (R7, U12, log 10). -/
def perform (s : State) (r : Except Fault State) : Host.Outcome State Fault Refusal :=
  if s.cfg.wf then
    match r with
    | .ok t => .next t
    | .error f => .fault f
  else .refused .configIllFormed

/-- `require PHASE = p`: in another phase the operation is not enabled, and what is presented changes nothing (R72, R191, R195,
log 3). -/
def whenPhase (p : Phase) (s : State) (r : Except Fault State) : Except Fault State :=
  if s.phase = p then r else .ok s

end Sys2Proof.Machine
end

