-- ==== Sys2Proof/Machine/Builder.lean ====
section
/-! DEFINITION. The four build micro-operations (R160 to R166) as operations of their own (log 9). -/

namespace Sys2Proof.Machine

open Sys2Proof

/-- BUILDSINE (R161). -/
def execBuildsine (s : State) : Host.Outcome State Fault Refusal := perform s (buildSine s)

/-- BUILDSQUARE t (R162). -/
def execBuildsquare (t : Nat) (s : State) : Host.Outcome State Fault Refusal := perform s (buildSquare t s)

/-- BUILDSAW (R163). -/
def execBuildsaw (s : State) : Host.Outcome State Fault Refusal := perform s (buildSaw s)

/-- BUILDTRI (R164). -/
def execBuildtri (s : State) : Host.Outcome State Fault Refusal := perform s (buildTri s)

end Sys2Proof.Machine
end

