-- ==== Sys2Proof/Machine/Flags.lean ====
section
/-! DEFINITION. The one status flag, TICK_PEND (R26, R28), and the enabling of the tick interrupt (R195, R196, R199). -/

namespace Sys2Proof.Machine

open Sys2Proof

/-- TICK is enabled exactly when PHASE = RUN and TICK_PEND = 1 (R100, R196). -/
def State.tickEnabled (s : State) : Bool := decide (s.phase = .run) && s.tickPend

/-- TIMER_FIRE's write: the flag is set; setting it when it is set leaves it set (R26, R195). -/
def setPending (s : State) : State := s.setTickPend true

/-- TICK's step 6, unconditional (R106). -/
def clearPending (s : State) : State := s.setTickPend false

end Sys2Proof.Machine
end

