-- ==== Sys2Proof/Machine/Events.lean ====
section
/-! DEFINITION. The event operations: RESET (R220), INIT (R170), TIMER_FIRE (R195) and TICK (R100 to R113). -/

namespace Sys2Proof.Machine

open Sys2Proof

/-- INIT's successful branch: the four builds in the order of R170, then PHASE <- RUN. -/
def initBuilds (s : State) : Except Fault State :=
  match buildSine s with
  | .error f => .error f
  | .ok s1 =>
    match buildSquare s1.duty s1 with
    | .error f => .error f
    | .ok s2 =>
      match buildSaw s2 with
      | .error f => .error f
      | .ok s3 =>
        match buildTri s3 with
        | .error f => .error f
        | .ok s4 => .ok (s4.setPhase .run)

/-- INIT(init_ok), enabled only in UNINIT (R170). -/
def initOperation (initOk : Bool) (s : State) : Except Fault State :=
  whenPhase .uninit s (if initOk then initBuilds s else .ok (raiseHalt s))

/-- TICK's step 5: `CURSOR <- c + n`; with ADVANCE_ON_DROP off, `c` on a dropped tick (R105, log 8). -/
def advance (s : State) (c n : Nat) (accepted : Bool) : State :=
  s.setCursor (if accepted || s.cfg.advanceOnDrop then c + n else c)

/-- TICK(rdy): the six steps (R101 to R107) when it is enabled (R100), nothing otherwise (log 3). -/
def tickOperation (rdy : Bool) (s : State) : Except Fault State :=
  if s.tickEnabled then
    let sh := s.shape
    let n := s.freq.toNat
    let c := boundCheck (s.cfg.len sh) s.cursor
    match lutRead s sh c with
    | .error f => .error f
    | .ok v =>
      let sent := trySend s v rdy
      .ok (clearPending (advance sent.1 c n sent.2))
  else .ok s

/-- RESET, enabled in every PHASE (R220). -/
def execReset (s : State) : Host.Outcome State Fault Refusal := perform s (.ok (resetState s))

/-- INIT (R170). -/
def execInit (initOk : Bool) (s : State) : Host.Outcome State Fault Refusal := perform s (initOperation initOk s)

/-- TIMER_FIRE (R195). -/
def execTimerFire (s : State) : Host.Outcome State Fault Refusal := perform s (whenPhase .run s (.ok (setPending s)))

/-- TICK (R107). -/
def execTick (rdy : Bool) (s : State) : Host.Outcome State Fault Refusal := perform s (tickOperation rdy s)

end Sys2Proof.Machine
end

