-- ==== Sys2Proof/Machine/Control.lean ====
section
/-! DEFINITION. The five primitive commands (R130 to R139), performed only in PHASE = RUN. -/

namespace Sys2Proof.Machine

open Sys2Proof

/-- SETSHAPE s: SHAPE only; CURSOR is not written (R131, C3). -/
def setShapeCommand (sh : Shape) (s : State) : Except Fault State :=
  whenPhase .run s (.ok (s.setShape sh))

/-- SETFREQ n: FREQ for a legal `n`, nothing otherwise (R132). -/
def setFreqCommand (n : BitVec 3) (s : State) : Except Fault State :=
  whenPhase .run s
    (match FreqIndex.ofOperand n with
     | some k => .ok (s.setFreq k)
     | none => .ok s)

/-- `DUTY <- d; BUILDSQUARE(DUTY)`, both or neither (R133, R135, R55). -/
def setDutyAndRebuild (d : Nat) (s : State) : Except Fault State := buildSquare d (s.setDuty d)

/-- ADJDUTY d: only while SHAPE = Square, and ignored past a bound (R133, R134). -/
def adjDutyCommand (d : Direction) (s : State) : Except Fault State :=
  whenPhase .run s
    (if s.shape = .square then
      match d with
      | .plus =>
        if s.duty + s.cfg.dutyStep ≤ s.cfg.dutyMax then setDutyAndRebuild (s.duty + s.cfg.dutyStep) s else .ok s
      | .minus =>
        if s.cfg.dutyMin + s.cfg.dutyStep ≤ s.duty then setDutyAndRebuild (s.duty - s.cfg.dutyStep) s else .ok s
     else .ok s)

/-- RSTDUTY: only while SHAPE = Square (R135, C5). -/
def rstDutyCommand (s : State) : Except Fault State :=
  whenPhase .run s (if s.shape = .square then setDutyAndRebuild s.cfg.duty50 s else .ok s)

/-- RSTALL, from any shape; it rebuilds the Square table and leaves CURSOR (R136, D19). -/
def rstAllCommand (s : State) : Except Fault State :=
  whenPhase .run s (setDutyAndRebuild s.cfg.duty50 ((s.setFreq .one).setShape .square))

/-- SETSHAPE s (R131). -/
def execSetshape (sh : Shape) (s : State) : Host.Outcome State Fault Refusal := perform s (setShapeCommand sh s)

/-- SETFREQ n (R132). -/
def execSetfreq (n : BitVec 3) (s : State) : Host.Outcome State Fault Refusal := perform s (setFreqCommand n s)

/-- ADJDUTY d (R133). -/
def execAdjduty (d : Direction) (s : State) : Host.Outcome State Fault Refusal := perform s (adjDutyCommand d s)

/-- RSTDUTY (R135). -/
def execRstduty (s : State) : Host.Outcome State Fault Refusal := perform s (rstDutyCommand s)

/-- RSTALL (R136). -/
def execRstall (s : State) : Host.Outcome State Fault Refusal := perform s (rstAllCommand s)

end Sys2Proof.Machine
end

