-- ==== Sys2Proof/Machine/Keys.lean ====
section
/-! DEFINITION. The twelve key codes, each performing one primitive command with that command's guards (R137, R140 to R151). -/

namespace Sys2Proof.Machine

open Sys2Proof

/-- KEY0 performs RSTDUTY (R140). -/
def execKey0 (s : State) : Host.Outcome State Fault Refusal := perform s (rstDutyCommand s)

/-- KEY1 performs SETFREQ 1 (R141). -/
def execKey1 (s : State) : Host.Outcome State Fault Refusal := perform s (setFreqCommand 1 s)

/-- KEY2 performs SETFREQ 2 (R142). -/
def execKey2 (s : State) : Host.Outcome State Fault Refusal := perform s (setFreqCommand 2 s)

/-- KEY3 performs SETFREQ 3 (R143). -/
def execKey3 (s : State) : Host.Outcome State Fault Refusal := perform s (setFreqCommand 3 s)

/-- KEY4 performs SETFREQ 4 (R144). -/
def execKey4 (s : State) : Host.Outcome State Fault Refusal := perform s (setFreqCommand 4 s)

/-- KEY5 performs SETFREQ 5 (R145). -/
def execKey5 (s : State) : Host.Outcome State Fault Refusal := perform s (setFreqCommand 5 s)

/-- KEY6 performs SETSHAPE Sine (R146). -/
def execKey6 (s : State) : Host.Outcome State Fault Refusal := perform s (setShapeCommand .sine s)

/-- KEY7 performs SETSHAPE Triangle (R147). -/
def execKey7 (s : State) : Host.Outcome State Fault Refusal := perform s (setShapeCommand .triangle s)

/-- KEY8 performs SETSHAPE Square (R148). -/
def execKey8 (s : State) : Host.Outcome State Fault Refusal := perform s (setShapeCommand .square s)

/-- KEY9 performs RSTALL (R149). -/
def execKey9 (s : State) : Host.Outcome State Fault Refusal := perform s (rstAllCommand s)

/-- KEYSTAR performs ADJDUTY − (R150). -/
def execKeystar (s : State) : Host.Outcome State Fault Refusal := perform s (adjDutyCommand .minus s)

/-- KEYHASH performs ADJDUTY + (R151). -/
def execKeyhash (s : State) : Host.Outcome State Fault Refusal := perform s (adjDutyCommand .plus s)

end Sys2Proof.Machine
end

