-- ==== Sys2Proof/Machine/Sink.lean ====
section
/-! DEFINITION. TRYSEND (R180 to R185) as an operation of its own (log 9). -/

namespace Sys2Proof.Machine

open Sys2Proof

/-- TRYSEND v (R181): the state it leaves; the Boolean it returns is a value of one TICK, not state (R28). -/
def execTrysend (v : Code) (rdy : Bool) (s : State) : Host.Outcome State Fault Refusal :=
  perform s (.ok (trySend s v rdy).1)

end Sys2Proof.Machine
end

