-- ==== Sys2Proof/Machine/Dispatch.lean ====
section
/-! DEFINITION. One arm per operation, each calling the operation's meaning. -/

namespace Sys2Proof.Machine

open Sys2Proof

def exec (i : Instr) (s : State) : Host.Outcome State Fault Refusal :=
  match i with
  | .setshape sh => Sys2Proof.Machine.execSetshape sh s
  | .setfreq n => Sys2Proof.Machine.execSetfreq n s
  | .adjduty d => Sys2Proof.Machine.execAdjduty d s
  | .rstduty => Sys2Proof.Machine.execRstduty s
  | .rstall => Sys2Proof.Machine.execRstall s
  | .key0 => Sys2Proof.Machine.execKey0 s
  | .key1 => Sys2Proof.Machine.execKey1 s
  | .key2 => Sys2Proof.Machine.execKey2 s
  | .key3 => Sys2Proof.Machine.execKey3 s
  | .key4 => Sys2Proof.Machine.execKey4 s
  | .key5 => Sys2Proof.Machine.execKey5 s
  | .key6 => Sys2Proof.Machine.execKey6 s
  | .key7 => Sys2Proof.Machine.execKey7 s
  | .key8 => Sys2Proof.Machine.execKey8 s
  | .key9 => Sys2Proof.Machine.execKey9 s
  | .keystar => Sys2Proof.Machine.execKeystar s
  | .keyhash => Sys2Proof.Machine.execKeyhash s
  | .reset => Sys2Proof.Machine.execReset s
  | .init initOk => Sys2Proof.Machine.execInit initOk s
  | .timerFire => Sys2Proof.Machine.execTimerFire s
  | .tick rdy => Sys2Proof.Machine.execTick rdy s
  | .trysend v rdy => Sys2Proof.Machine.execTrysend v rdy s
  | .buildsine => Sys2Proof.Machine.execBuildsine s
  | .buildsquare t => Sys2Proof.Machine.execBuildsquare t s
  | .buildsaw => Sys2Proof.Machine.execBuildsaw s
  | .buildtri => Sys2Proof.Machine.execBuildtri s

end Sys2Proof.Machine
end

