-- ==== Sys2Proof/Machine/Sequence.lean ====
section
/-! DEFINITION. How the next operation is chosen: the head of the schedule is decoded and performed (R11, R71, R81, log 2). -/

namespace Sys2Proof.Machine

open Sys2Proof

/-- Perform what an input decoded to; a reserved code performs no operation and changes nothing (R78). -/
def runDecoded (d : Decoded) (s : State) : Host.Outcome State Fault Refusal :=
  match d with
  | .instr i => exec i s
  | .reserved _ => perform s (.ok s)

/-- One turn: the next event is taken off the schedule and performed; with nothing scheduled no operation happens and nothing
changes (R11, log 2). -/
def takeTurn (s : State) : Host.Outcome State Fault Refusal :=
  match s.schedule with
  | [] => perform s (.ok s)
  | e :: rest => runDecoded (decodeEvent e) (s.setSchedule rest)

/-- A state in which commands are accepted: INIT ok is performed first where the block is not running, after RESET where it is
halted (R72, R222, log 4). -/
def bringUp (s : State) : State :=
  let start := match s.phase with
    | .run => s
    | .uninit => s
    | .halt => resetState s
  match initOperation true start with
  | .ok t => t
  | .error _ => start

/-- Present the instruction word `w` of `nbits` bits as the next event; only 8-bit command codes are presented (R84, log 4). -/
def presentWord (s : State) (nbits w : Nat) : State :=
  let t := bringUp s
  if nbits = 8 then t.setSchedule (.cmd (BitVec.ofNat 8 w) :: t.schedule) else t

end Sys2Proof.Machine
end

