-- ==== Sys2Proof/Machine/Step.lean ====
section
/-! DEFINITION. One step of the machine, and the placing of an instruction where the next step takes it. -/

namespace Sys2Proof.Machine

open Sys2Proof

/-- One step: one turn of the agents (R11). -/
def step (s : State) : Host.Outcome State Fault Refusal := takeTurn s

/-- `s` running, with the instruction whose table word is `w` presented next (log 4). -/
def State.withFetchWord (s : State) (nbits w : Nat) : State := presentWord s nbits w

end Sys2Proof.Machine
end

