-- ==== Sys2Proof/Machine/Ports.lean ====
section
/-! DEFINITION. The output ports (R13), the lines of one clock period (R197), and the written form of operations with its
pseudo-operations (R82, R83). -/

namespace Sys2Proof.Machine

open Sys2Proof

/-- `cmd_ready`: 1 exactly when PHASE = RUN (R13, R72). -/
def State.cmdReady (s : State) : Bool := decide (s.phase = .run)

/-- `sink_valid` of a TICK's trace element (R13, R181). -/
def TraceEvent.sinkValid : TraceEvent → Bool
  | .sent _ => true
  | .dropped => false

/-- `sink_frame`, meaningful when `sink_valid` is 1 (R13, R181). -/
def TraceEvent.sinkFrame : TraceEvent → Option Frame
  | .sent f => some f
  | .dropped => none

/-- The input lines a clocked implementation sees in one clock period (R197). -/
structure ClockPeriod where
  rst : Bool
  timerEvt : Bool
  sinkReady : Bool
  cmd : Option CmdCode
  deriving DecidableEq, Repr

/-- The operations of one clock period in the order R197 fixes: RESET, TIMER_FIRE, TICK, the command. A TICK that is not
enabled changes nothing. INIT is not in R197's list (log 12). -/
def ClockPeriod.events (p : ClockPeriod) : List Event :=
  (if p.rst then [.rst] else []) ++ (if p.timerEvt then [.timerEvt] else []) ++ [.serviceTick p.sinkReady]
    ++ p.cmd.toList.map .cmd

/-- A line of the written form (R82), pseudo-operations included (R83). -/
inductive Line where
  | reset
  | initLine (initOk : Bool)
  | fire
  | tick (rdy : Bool)
  | t (rdy : Bool)
  | setshape (sh : Shape)
  | setfreq (n : BitVec 3)
  | adjduty (d : Direction)
  | rstduty
  | rstall
  | key (c : Char)
  | cmd (code : CmdCode)
  | incduty
  | decduty
  deriving DecidableEq, Repr

/-- The key characters (R74). -/
def keyChars : List Char := ['0', '1', '2', '3', '4', '5', '6', '7', '8', '9', '*', '#']

/-- The code of a key: the character's ASCII code (R74, log 16). -/
def keyCode (c : Char) : Option CmdCode := if c ∈ keyChars then some (BitVec.ofNat 8 c.toNat) else none

/-- The events of an operation presented on its own. -/
def presented (i : Instr) : List Event := (encode i).toList

/-- The events a line stands for (R82, R83). A key line whose character is no key is no line of the written form. -/
def Line.events : Line → List Event
  | .reset => presented .reset
  | .initLine ok => presented (.init ok)
  | .fire => presented .timerFire
  | .tick rdy => presented (.tick rdy)
  | .t rdy => presented .timerFire ++ presented (.tick rdy)
  | .setshape sh => presented (.setshape sh)
  | .setfreq n => presented (.setfreq n)
  | .adjduty d => presented (.adjduty d)
  | .rstduty => presented .rstduty
  | .rstall => presented .rstall
  | .key c => (keyCode c).toList.map .cmd
  | .cmd code => [.cmd code]
  | .incduty => presented (.adjduty .plus)
  | .decduty => presented (.adjduty .minus)

/-- The schedule of a program, a sequence of lines (95_test_vectors.md section 7). -/
def programEvents (p : List Line) : List Event := p.flatMap Line.events

end Sys2Proof.Machine
end

