-- ==== Sys2Proof/Safety.lean ====
section
/-! DEFINITION. The terms claims are stated in: reading one entry, runs of several steps, reachable states, the invariant, and
the sine table's named property. -/

namespace Sys2Proof.Machine

open Sys2Proof

/-- The configuration is well-formed and the tables are in canonical form, within their depths: what an operation needs of a
state for its reads and writes to mean what they say. -/
structure State.Sound (s : State) : Prop where
  cfgWf : s.cfg.wf = true
  canonical : ∀ sh, (s.table sh).wf = true
  mapped : ∀ sh, (s.table sh).below (s.cfg.depth sh) = true

/-- Entry `i` of the table of a shape as a number; none where the address is unmapped (R52, R53). -/
def State.entry (s : State) (sh : Shape) (i : Nat) : Option Nat :=
  match lutRead s sh i with
  | .ok v => some v.toNat
  | .error _ => none

/-- `k` steps, stopping at the first stop. -/
def steps : Nat → State → Host.Outcome State Fault Refusal
  | 0, s => .next s
  | k + 1, s =>
    match step s with
    | .next t => steps k t
    | .fault f => .fault f
    | .refused r => .refused r

/-- The states a block of configuration `c` can reach from RESET, the agents doing anything whatever (R11). -/
def Reachable (c : Cfg) (s : State) : Prop :=
  ∃ events k, steps k ((State.resetOf c).setSchedule events) = .next s

/-- The tables hold what the builds give them, the Square table for the present DUTY (R30, R161 to R164). -/
structure State.Built (s : State) : Prop where
  sine : ∀ i < s.cfg.lenSine, s.entry .sine i = some (sineEntry s.cfg i)
  square : ∀ i < s.cfg.lenSquare, s.entry .square i = some (squareEntry s.cfg s.duty i)
  saw : ∀ i < s.cfg.lenSaw, s.entry .sawtooth i = some (sawEntry s.cfg i)
  triUp : ∀ i ≤ s.cfg.triBp1, s.entry .triangle i = some (triUpEntry s.cfg i)
  triGap : ∀ i, s.cfg.triBp1 < i → i < s.cfg.triBp2 → s.entry .triangle i = some 0
  triDown : ∀ i, s.cfg.triBp2 ≤ i → i < s.cfg.depthTri → s.entry .triangle i = some (triDownEntry s.cfg i)

/-- The invariant of the block. -/
structure State.Inv (s : State) : Prop where
  /-- R7, and the tables in canonical form. -/
  sound : s.Sound
  /-- R25: `DUTY_MIN ≤ DUTY ≤ DUTY_MAX`. -/
  dutyRange : s.cfg.dutyMin ≤ s.duty ∧ s.duty ≤ s.cfg.dutyMax
  /-- R25: `DUTY − DUTY_MIN` is a multiple of DUTY_STEP. -/
  dutyAligned : s.cfg.dutyStep ∣ s.duty - s.cfg.dutyMin
  /-- R21, R109. -/
  cursorBound : s.cursor ≤ s.cfg.maxLen + 4
  /-- R109 (iii): with ADVANCE_ON_DROP, CURSOR is 0 only between RESET and the first TICK. -/
  cursorZero : s.cfg.advanceOnDrop = true → (s.cursor = 0 ↔ s.trace = [])
  /-- R79: every frame sent carries SINK_PREFIX in bits 15:12. -/
  framePrefix : ∀ f, TraceEvent.sent f ∈ s.trace → f.toNat / 4096 = s.cfg.sinkPrefix
  /-- R34, R170: outside RUN nothing but PHASE differs from the reset state. -/
  idle : s.phase ≠ .run → s = ((State.resetOf s.cfg).setPhase s.phase).setSchedule s.schedule
  /-- R30: in RUN the tables are built. -/
  built : s.phase = .run → s.Built

/-- The events of successive ticks, each a timer event and its service: `T rdy` for each value of `rdys` (R82). -/
def tickEvents (rdys : List Bool) : List Event := rdys.flatMap (fun rdy => [.timerEvt, .serviceTick rdy])

/-- What one TICK that fetches entry `i` of the table of `sh` appends to the trace (R104). -/
def sampleEvent (s : State) (sh : Shape) (i : Nat) (rdy : Bool) : TraceEvent :=
  if rdy then .sent (frameOf s.cfg ((s.table sh).read i)) else .dropped

/-- The Square table of `t` is the one BUILDSQUARE(d) leaves, and every other address reads as it did in `s` (R162, R59). -/
structure SquareRebuilt (s t : State) (d : Nat) : Prop where
  high : ∀ i < s.cfg.lenSquare, i < d → t.entry .square i = some s.cfg.sqHigh
  low : ∀ i < s.cfg.lenSquare, d ≤ i → t.entry .square i = some s.cfg.sqLow
  rest : ∀ sh i, sh ≠ .square ∨ s.cfg.lenSquare ≤ i → lutRead t sh i = lutRead s sh i

/-- Every address of the tables other than that of `sh` reads as it did, and so does every unmapped one. -/
def OtherTablesKept (s t : State) (sh : Shape) : Prop :=
  ∀ k i, k ≠ sh ∨ s.cfg.depth sh ≤ i → lutRead t k i = lutRead s k i

/-- The operation is presented by a command code (R71). -/
def IsCommand (i : Instr) : Prop := ∃ c, encode i = some (.cmd c)

end Sys2Proof.Machine

namespace Sys2Proof

/-- The named property of SINE_ROM (R161): each entry lies within one half of the formula's real value. -/
def Cfg.SineHalfUnit (c : Cfg) : Prop :=
  ∀ i < c.lenSine,
    |((c.sineRom.getD i 0 : Nat) : ℝ) - ((c.sineAmpl : ℝ) * Real.sin (4 * Real.pi * i / c.lenSine) + c.sineDc)| ≤ 1 / 2

/-- SINE_ROM is the formula's table for some rounding of the reals to a nearest integer, which way a half goes left open
(R161, U13, log 7). -/
def Cfg.SineRounded (c : Cfg) : Prop :=
  ∃ round : ℝ → Int, (∀ x, |(round x : ℝ) - x| ≤ 1 / 2) ∧
    ∀ i < c.lenSine,
      ((c.sineRom.getD i 0 : Nat) : Int)
        = round ((c.sineAmpl : ℝ) * Real.sin (4 * Real.pi * i / c.lenSine) + c.sineDc)

end Sys2Proof
end

