-- ==== Sys2Proof/Certificates/Slice0/Obligations.lean ====
section
/-! DEFINITION. The statements for the provers. `s.cfg` is arbitrary in each: a statement holds for every configuration that
passes R7, and none rests on the configuration `State.reset` carries (log 1). "D<n>" is a decision the spec marks as its own. -/

open Sys2Proof Sys2Proof.Machine

/-! ## Encodings -/

/-- Codes written out from the tables of 30_encoding.md sections 2.1 and 2.2 decode to the operations they stand for. The bit
layout is the spec's decision D16, the key codes its decision D17 (log 16). -/
def Obligations.ListedCodesDecodeAsTabulated : Prop :=
  decodeCmd 0b10000010 = .instr (.setshape .triangle) ∧
  decodeCmd 0b10000011 = .instr (.setshape .sawtooth) ∧
  decodeCmd 0b10010101 = .instr (.setfreq 5) ∧
  decodeCmd 0b10010110 = .instr (.setfreq 6) ∧
  decodeCmd 0b10100001 = .instr (.adjduty .plus) ∧
  decodeCmd 0b10110000 = .instr .rstduty ∧
  decodeCmd 0b11000000 = .instr .rstall ∧
  decodeCmd 0b00110000 = .instr .key0 ∧
  decodeCmd 0b00111001 = .instr .key9 ∧
  decodeCmd 0b00101010 = .instr .keystar ∧
  decodeCmd 0b00100011 = .instr .keyhash ∧
  decodeCmd 0b10011000 = .reserved 0x98

/-- Every operation that stands on the block's inputs has an encoding that decodes back to it, with every operand. -/
def Obligations.EncodedOperationsDecodeBack : Prop :=
  ∀ i : Instr, i.wf = true → ∃ e, encode i = some e ∧ decodeEvent e = .instr i

/-- An event has one meaning, and it is the event the operation's encoding gives: no two codes share an operation, and no event
decodes to TRYSEND or to a build (R81). -/
def Obligations.DecodedEventsEncodeBack : Prop :=
  ∀ (e : Event) (i : Instr), decodeEvent e = .instr i → encode i = some e ∧ i.wf = true

/-- The reserved codes are those R78 lists, and one of them performs no operation and changes no state. That they are ignored
is the spec's decision D18. The layout of format X is its decision D16; the numbers of the key codes are its decision D17, and
PRESUMED (log 16). -/
def Obligations.ReservedCodesAreThoseListedAndIgnored : Prop :=
  (∀ c : CmdCode, decodeCmd c = .reserved c ↔
    (c.toNat < 0x80 ∧ c.toNat ≠ 0x23 ∧ c.toNat ≠ 0x2A ∧ ¬ (0x30 ≤ c.toNat ∧ c.toNat ≤ 0x39)) ∨
    (0x84 ≤ c.toNat ∧ c.toNat ≤ 0x8F) ∨ (0x98 ≤ c.toNat ∧ c.toNat ≤ 0x9F) ∨ (0xA2 ≤ c.toNat ∧ c.toNat ≤ 0xAF) ∨
    (0xB1 ≤ c.toNat ∧ c.toNat ≤ 0xBF) ∨ 0xC1 ≤ c.toNat) ∧
  (∀ (c : CmdCode) (i : Instr), decodeCmd c = .instr i → decodeCmd c ≠ .reserved c) ∧
  ∀ (s : State) (c : CmdCode) (rest : List Event), s.cfg.wf = true → s.schedule = .cmd c :: rest →
    decodeCmd c = .reserved c → step s = .next { s with schedule := rest }

/-! ## The step and the configuration -/

/-- A step performs the operation the head of the schedule decodes to, on the state with that event taken off; with nothing
scheduled nothing changes (the model's schedule: log 2). -/
def Obligations.StepPerformsDecodedOperation : Prop :=
  (∀ (s : State) (e : Event) (rest : List Event) (i : Instr), s.schedule = e :: rest → decodeEvent e = .instr i →
    step s = exec i { s with schedule := rest }) ∧
  ∀ s : State, s.cfg.wf = true → s.schedule = [] → step s = .next s

/-- The configuration check is the nine items of R7, and a configuration that fails it is refused by every operation and every
step. The constraints are the spec's decisions D7, D9, D12 to D15. -/
def Obligations.ConfigurationCheckIsNineItems : Prop :=
  (∀ c : Cfg, c.wf = true ↔
    (1 ≤ c.lenSine ∧ 1 ≤ c.lenSquare ∧ 1 ≤ c.lenSaw ∧ 1 ≤ c.lenTri ∧ c.lenTri ≤ c.depthTri) ∧
    (∀ sh, c.len sh + 5 ≤ 2 ^ c.cursorWidth) ∧
    (c.dutyMin ≤ c.duty50 ∧ c.duty50 ≤ c.dutyMax ∧ c.dutyMax ≤ c.lenSquare ∧ 1 ≤ c.dutyStep) ∧
    (c.dutyStep ∣ c.duty50 - c.dutyMin ∧ c.dutyStep ∣ c.dutyMax - c.duty50) ∧
    (c.sqHigh ≤ 4095 ∧ c.sqLow ≤ 4095) ∧
    (c.sineRom.length = c.lenSine ∧ ∀ v ∈ c.sineRom, v ≤ 4095) ∧
    c.sawSlope * (c.lenSaw - 1) ≤ 4095 ∧
    (c.triBp1 < c.triBp2 ∧ c.triBp2 < c.depthTri ∧
      (∀ i ≤ c.triBp1, c.triUpBase + c.triUpSlope * i ≤ 4095) ∧
      ∀ i, c.triBp2 ≤ i → i < c.depthTri →
        c.triDnSlope * (i - c.triBp2) ≤ c.triDnBase ∧ c.triDnBase - c.triDnSlope * (i - c.triBp2) ≤ 4095) ∧
    c.sinkPrefix < 16) ∧
  (∀ (i : Instr) (s : State), s.cfg.wf = false → exec i s = .refused .configIllFormed) ∧
  ∀ s : State, s.cfg.wf = false → step s = .refused .configIllFormed

/-- `leastWidth n` is the least width whose powers of two exceed `n`: so `W_D` of 00_scope.md section 4 is the least width that
holds `max(DUTY_MAX, LEN_SQUARE)`, and the value given there for `W_C` is the least width that passes item 2 of the configuration
check, which every wider one passes too (log 6; the widths are the spec's decisions D6 and D7). -/
def Obligations.WidthsAreLeast : Prop :=
  (∀ n : Nat, n < 2 ^ leastWidth n ∧ ∀ w, w < leastWidth n → 2 ^ w ≤ n) ∧
  (∀ c : Cfg, max c.dutyMax c.lenSquare < 2 ^ c.dutyWidth ∧
    ∀ w, max c.dutyMax c.lenSquare < 2 ^ w → c.dutyWidth ≤ w) ∧
  ∀ c : Cfg, (∀ w, c.maxLen + 5 ≤ 2 ^ w ↔ c.leastCursorWidth ≤ w) ∧
    (c.cursorWidthOk = true ↔ c.leastCursorWidth ≤ c.cursorWidth)

/-! ## Reset and initialisation -/

/-- The reset state, for every configuration (10_state.md section 5). The zero CURSOR, TICK_PEND and table storage are the spec's
decisions D6, D24 and D11. -/
def Obligations.ResetStateHasListedValues : Prop :=
  ∀ c : Cfg,
    (State.resetOf c).phase = .uninit ∧ (State.resetOf c).shape = .square ∧ (State.resetOf c).freq.toNat = 1 ∧
    (State.resetOf c).duty = c.duty50 ∧ (State.resetOf c).cursor = 0 ∧ (State.resetOf c).tickPend = false ∧
    (State.resetOf c).trace = [] ∧ (State.resetOf c).cfg = c ∧
    ∀ sh i, i < c.depth sh → (State.resetOf c).entry sh i = some 0

/-- RESET, in every state, leaves the reset state; the configuration stays, and so do the events still scheduled (log 11).
In the reset state it changes nothing. That it may occur at any time is the spec's decision D34. -/
def Obligations.ResetLeavesResetState : Prop :=
  (∀ s : State, s.cfg.wf = true → exec .reset s = .next { State.resetOf s.cfg with schedule := s.schedule }) ∧
  ∀ c : Cfg, c.wf = true → exec .reset (State.resetOf c) = .next (State.resetOf c)

/-- INIT ok in UNINIT builds the four tables, the Square table for the present DUTY, and enters RUN; the triangle's entries
strictly between the breakpoints, every unmapped address and every register but PHASE are unchanged. INIT as one operation is the
spec's decision D23. -/
def Obligations.InitOkBuildsTablesAndRuns : Prop :=
  ∀ s : State, s.Sound → s.phase = .uninit →
    ∃ t, exec (.init true) s = .next t ∧
      t = { s with phase := .run, sine := t.sine, square := t.square, tri := t.tri, saw := t.saw } ∧
      (∀ i < s.cfg.lenSine, t.entry .sine i = some (s.cfg.sineRom.getD i 0)) ∧
      (∀ i < s.cfg.lenSquare, t.entry .square i = some (if i < s.duty then s.cfg.sqHigh else s.cfg.sqLow)) ∧
      (∀ i < s.cfg.lenSaw, t.entry .sawtooth i = some (s.cfg.sawSlope * i)) ∧
      (∀ i ≤ s.cfg.triBp1, t.entry .triangle i = some (s.cfg.triUpBase + s.cfg.triUpSlope * i)) ∧
      (∀ i, s.cfg.triBp2 ≤ i → i < s.cfg.depthTri →
        t.entry .triangle i = some (s.cfg.triDnBase - s.cfg.triDnSlope * (i - s.cfg.triBp2))) ∧
      (∀ i, s.cfg.triBp1 < i → i < s.cfg.triBp2 → lutRead t .triangle i = lutRead s .triangle i) ∧
      ∀ sh i, s.cfg.depth sh ≤ i → lutRead t sh i = lutRead s sh i

/-- INIT fail in UNINIT raises Halt: PHASE becomes HALT and nothing else changes. In RUN and HALT INIT is not enabled, and its
presentation changes nothing (log 3). -/
def Obligations.InitFailHaltsAndInitRunsOnlyInUninit : Prop :=
  (∀ s : State, s.cfg.wf = true → s.phase = .uninit → exec (.init false) s = .next { s with phase := .halt }) ∧
  ∀ (s : State) (ok : Bool), s.cfg.wf = true → s.phase ≠ .uninit → exec (.init ok) s = .next s

/-- In HALT every event but RESET changes nothing, whatever it is, and RESET leads to UNINIT. That HALT is permanent is the
spec's decision D33. -/
def Obligations.HaltIsLeftOnlyByReset : Prop :=
  ∀ (s : State) (e : Event) (rest : List Event), s.cfg.wf = true → s.phase = .halt → s.schedule = e :: rest →
    (e ≠ .rst → step s = .next { s with schedule := rest }) ∧
    (e = .rst → step s = .next { State.resetOf s.cfg with schedule := rest })

/-! ## TICK -/

/-- TICK when it is enabled: the entry at the checked cursor is read, one trace element is appended, CURSOR advances from the
checked value, TICK_PEND is cleared, and nothing else changes. On a dropped tick the advance is the spec's decision D20, with its
switch ADVANCE_ON_DROP (log 8); the frame's layout is its decision D22. -/
def Obligations.TickPerformsSixSteps : Prop :=
  ∀ (s : State) (rdy : Bool), s.cfg.wf = true → s.phase = .run → s.tickPend = true →
    ∃ v : Code,
      lutRead s s.shape (if s.cursor < s.cfg.len s.shape then s.cursor else 0) = .ok v ∧
      exec (.tick rdy) s = .next { s with
        cursor := (if s.cursor < s.cfg.len s.shape then s.cursor else 0) +
          (if rdy = true ∨ s.cfg.advanceOnDrop = true then s.freq.toNat else 0)
        tickPend := false
        trace := s.trace ++ [if rdy = true then .sent (BitVec.ofNat 4 s.cfg.sinkPrefix ++ v) else .dropped] }

/-- TICK is enabled exactly when PHASE = RUN and TICK_PEND = 1; otherwise the dispatcher's turn changes nothing (log 3), and when
it is enabled exactly one trace element is appended. -/
def Obligations.TickIsEnabledExactlyWhenPendingInRun : Prop :=
  ∀ (s : State) (rdy : Bool), s.cfg.wf = true →
    (¬ (s.phase = .run ∧ s.tickPend = true) → exec (.tick rdy) s = .next s) ∧
    (s.phase = .run ∧ s.tickPend = true →
      ∃ t e, exec (.tick rdy) s = .next t ∧ t.trace = s.trace ++ [e] ∧ (e = .dropped ↔ rdy = false))

/-- R102: a cursor at or past the length of the active table is reset to 0 before use, not reduced modulo the length; the index
used is always below the length, and a cursor below it is used as it is. -/
def Obligations.TickResetsCursorPastLengthToZero : Prop :=
  ∀ (s : State) (rdy : Bool), s.cfg.wf = true → s.phase = .run → s.tickPend = true →
    (s.cfg.len s.shape ≤ s.cursor → exec (.tick rdy) s = exec (.tick rdy) { s with cursor := 0 }) ∧
    (s.cursor < s.cfg.len s.shape → s.fetchIndex = s.cursor) ∧
    s.fetchIndex < s.cfg.len s.shape ∧
    ∃ t, exec (.tick rdy) s = .next t ∧ t.trace = s.trace ++ [sampleEvent s s.shape s.fetchIndex rdy]

/-- R106: the pending flag is cleared by every TICK, a sample sent or not, so that TICK is not enabled again with no timer event
between. -/
def Obligations.TickClearsPendingFlagAlways : Prop :=
  ∀ (s : State) (rdy : Bool), s.cfg.wf = true → s.phase = .run → s.tickPend = true →
    ∃ t, exec (.tick rdy) s = .next t ∧ t.tickPend = false ∧ t.tickEnabled = false

/-- R113: TICK depends only on SHAPE, FREQ, CURSOR and the one entry it fetches (and the configuration), and it writes only
CURSOR, TICK_PEND and the trace: two states that agree on the former get the same cursor and the same new trace element, and keep
everything else of their own. -/
def Obligations.TickReadsOneEntryAndWritesThreeFields : Prop :=
  ∀ (s u : State) (rdy : Bool), s.cfg.wf = true → s.phase = .run → s.tickPend = true →
    u.phase = .run → u.tickPend = true → u.cfg = s.cfg → u.shape = s.shape → u.freq = s.freq → u.cursor = s.cursor →
    lutRead u u.shape u.fetchIndex = lutRead s s.shape s.fetchIndex →
    ∃ c e,
      exec (.tick rdy) s = .next { s with cursor := c, tickPend := false, trace := s.trace ++ [e] } ∧
      exec (.tick rdy) u = .next { u with cursor := c, tickPend := false, trace := u.trace ++ [e] }

/-- R111: a switch of shape, by SETSHAPE or by RSTALL, leaves CURSOR, and the next TICK reads the new table from the stored cursor
if it is below the new length and from 0 otherwise. That RSTALL leaves CURSOR is the spec's decision D19, the frame's layout D22. -/
def Obligations.ShapeSwitchRevalidatesCursorAtNextTick : Prop :=
  ∀ (s : State) (rdy : Bool), s.cfg.wf = true → s.phase = .run → s.tickPend = true →
    (∀ sh, ∃ t u, exec (.setshape sh) s = .next t ∧ t.cursor = s.cursor ∧ exec (.tick rdy) t = .next u ∧
      u.trace = s.trace ++ [sampleEvent s sh (if s.cfg.len sh ≤ s.cursor then 0 else s.cursor) rdy]) ∧
    ∃ t u, exec .rstall s = .next t ∧ t.cursor = s.cursor ∧ exec (.tick rdy) t = .next u ∧
      u.trace = s.trace ++ [sampleEvent t .square (if s.cfg.lenSquare ≤ s.cursor then 0 else s.cursor) rdy]

/-- TIMER_FIRE in RUN sets TICK_PEND and changes nothing else; a second one before the service is lost; outside RUN it changes
nothing. The lost event and the effect outside RUN are the spec's decisions D24 and D23. -/
def Obligations.TimerFireSetsPendingFlagInRun : Prop :=
  ∀ s : State, s.cfg.wf = true →
    (s.phase = .run → exec .timerFire s = .next { s with tickPend := true } ∧
      exec .timerFire { s with tickPend := true } = .next { s with tickPend := true }) ∧
    (s.phase ≠ .run → exec .timerFire s = .next s)

/-! ## Commands -/

/-- R131: SETSHAPE in RUN writes SHAPE and nothing else. The shape codes and the command's layout are the spec's decisions D4 and
D16. -/
def Obligations.SetShapeWritesShapeOnly : Prop :=
  ∀ (s : State) (sh : Shape), s.cfg.wf = true → s.phase = .run →
    exec (.setshape sh) s = .next { s with shape := sh } ∧
    decodeCmd (0x80 ||| sh.code.setWidth 8) = .instr (.setshape sh)

/-- SETFREQ in RUN writes FREQ for n in 1..5 and nothing else; n = 0, 6, 7 change nothing (the spec's decision D5). -/
def Obligations.SetFreqWritesLegalIndexOnly : Prop :=
  ∀ (s : State) (n : BitVec 3), s.cfg.wf = true → s.phase = .run →
    (1 ≤ n.toNat ∧ n.toNat ≤ 5 → ∃ k : FreqIndex, k.toNat = n.toNat ∧ exec (.setfreq n) s = .next { s with freq := k }) ∧
    (¬ (1 ≤ n.toNat ∧ n.toNat ≤ 5) → exec (.setfreq n) s = .next s)

/-- R133: ADJDUTY in RUN with SHAPE = Square and the step within the bounds writes DUTY and rebuilds the Square table for the
updated value; every other register and every other address is unchanged. Off Square, or past a bound, nothing changes; that a
step past a bound is ignored is the spec's decision D8. -/
def Obligations.AdjDutyStepsAndRebuildsOrIsIgnored : Prop :=
  ∀ s : State, s.Sound → s.phase = .run →
    (s.shape = .square → s.duty + s.cfg.dutyStep ≤ s.cfg.dutyMax →
      ∃ m, exec (.adjduty .plus) s = .next { s with duty := s.duty + s.cfg.dutyStep, square := m } ∧
        SquareRebuilt s { s with duty := s.duty + s.cfg.dutyStep, square := m } (s.duty + s.cfg.dutyStep)) ∧
    (s.shape = .square → s.cfg.dutyMin + s.cfg.dutyStep ≤ s.duty →
      ∃ m, exec (.adjduty .minus) s = .next { s with duty := s.duty - s.cfg.dutyStep, square := m } ∧
        SquareRebuilt s { s with duty := s.duty - s.cfg.dutyStep, square := m } (s.duty - s.cfg.dutyStep)) ∧
    (s.shape ≠ .square ∨ s.cfg.dutyMax < s.duty + s.cfg.dutyStep → exec (.adjduty .plus) s = .next s) ∧
    (s.shape ≠ .square ∨ s.duty < s.cfg.dutyMin + s.cfg.dutyStep → exec (.adjduty .minus) s = .next s)

/-- In every state that meets the invariant, ignoring a step past a bound and clamping at the bound give the same DUTY, and a
refused step leaves the whole state, however often it is repeated (the spec's decision D8). -/
def Obligations.DutyStepsClampAtTheBounds : Prop :=
  ∀ s : State, s.Inv → s.phase = .run → s.shape = .square →
    (∃ t, exec (.adjduty .plus) s = .next t ∧ t.duty = min (s.duty + s.cfg.dutyStep) s.cfg.dutyMax ∧
      (s.duty = s.cfg.dutyMax → t = s)) ∧
    ∃ t, exec (.adjduty .minus) s = .next t ∧ t.duty = max (s.duty - s.cfg.dutyStep) s.cfg.dutyMin ∧
      (s.duty = s.cfg.dutyMin → t = s)

/-- R135: RSTDUTY in RUN with SHAPE = Square sets DUTY to DUTY_50 and rebuilds the Square table; every other register and address
is unchanged. Off Square nothing changes. -/
def Obligations.RstDutyRestoresFiftyPercentInSquare : Prop :=
  ∀ s : State, s.Sound → s.phase = .run →
    (s.shape = .square →
      ∃ m, exec .rstduty s = .next { s with duty := s.cfg.duty50, square := m } ∧
        SquareRebuilt s { s with duty := s.cfg.duty50, square := m } s.cfg.duty50) ∧
    (s.shape ≠ .square → exec .rstduty s = .next s)

/-- RSTALL in RUN, from any shape, restores FREQ = 1, DUTY = DUTY_50 and SHAPE = Square and rebuilds the Square table; CURSOR and
everything else is unchanged. The rebuild and the untouched cursor are the spec's decision D19. -/
def Obligations.RstAllRestoresDefaults : Prop :=
  ∀ s : State, s.Sound → s.phase = .run →
    ∃ m, exec .rstall s = .next { s with freq := .one, duty := s.cfg.duty50, shape := .square, square := m } ∧
      SquareRebuilt s { s with freq := .one, duty := s.cfg.duty50, shape := .square, square := m } s.cfg.duty50

/-- R137: each key performs exactly its primitive command, with that command's guards, in every state. -/
def Obligations.KeysPerformTheirPrimitiveCommands : Prop :=
  ∀ s : State,
    exec .key0 s = exec .rstduty s ∧
    exec .key1 s = exec (.setfreq 1) s ∧ exec .key2 s = exec (.setfreq 2) s ∧ exec .key3 s = exec (.setfreq 3) s ∧
    exec .key4 s = exec (.setfreq 4) s ∧ exec .key5 s = exec (.setfreq 5) s ∧
    exec .key6 s = exec (.setshape .sine) s ∧ exec .key7 s = exec (.setshape .triangle) s ∧
    exec .key8 s = exec (.setshape .square) s ∧ exec .key9 s = exec .rstall s ∧
    exec .keystar s = exec (.adjduty .minus) s ∧ exec .keyhash s = exec (.adjduty .plus) s

/-- Keys '1' to '5' in RUN set FREQ to 1..5, the nominal presets 100 to 500 Hz, and change nothing else. -/
def Obligations.FrequencyKeysSelectPresets : Prop :=
  ∀ s : State, s.cfg.wf = true → s.phase = .run →
    (exec .key1 s = .next { s with freq := .one } ∧ FreqIndex.one.nominalHz = 100) ∧
    (exec .key2 s = .next { s with freq := .two } ∧ FreqIndex.two.nominalHz = 200) ∧
    (exec .key3 s = .next { s with freq := .three } ∧ FreqIndex.three.nominalHz = 300) ∧
    (exec .key4 s = .next { s with freq := .four } ∧ FreqIndex.four.nominalHz = 400) ∧
    (exec .key5 s = .next { s with freq := .five } ∧ FreqIndex.five.nominalHz = 500)

/-- Keys '6', '7' and '8' in RUN select Sine, Triangle and Square and change nothing else: CURSOR, DUTY and the Square table are
as last left. -/
def Obligations.ShapeKeysSelectShapes : Prop :=
  ∀ s : State, s.cfg.wf = true → s.phase = .run →
    exec .key6 s = .next { s with shape := .sine } ∧
    exec .key7 s = .next { s with shape := .triangle } ∧
    exec .key8 s = .next { s with shape := .square }

/-- Keys '0' and '9' in RUN: '0' resets the duty in Square and is ignored elsewhere; '9' restores the defaults from any shape.
That '9' rebuilds the table and leaves CURSOR is the spec's decision D19. -/
def Obligations.ResetKeysRestoreDutyAndDefaults : Prop :=
  ∀ s : State, s.Sound → s.phase = .run →
    (s.shape = .square →
      ∃ m, exec .key0 s = .next { s with duty := s.cfg.duty50, square := m } ∧
        SquareRebuilt s { s with duty := s.cfg.duty50, square := m } s.cfg.duty50) ∧
    (s.shape ≠ .square → exec .key0 s = .next s) ∧
    ∃ m, exec .key9 s = .next { s with freq := .one, duty := s.cfg.duty50, shape := .square, square := m } ∧
      SquareRebuilt s { s with freq := .one, duty := s.cfg.duty50, shape := .square, square := m } s.cfg.duty50

/-- Keys '*' and '#' in RUN and Square, in states that meet the invariant: one step down or up within the bounds, with the rebuild
for the new DUTY; at the bound, and off Square, nothing changes. -/
def Obligations.DutyKeysStepWithinBounds : Prop :=
  ∀ s : State, s.Inv → s.phase = .run →
    (s.shape = .square → s.duty ≠ s.cfg.dutyMin →
      ∃ m, exec .keystar s = .next { s with duty := s.duty - s.cfg.dutyStep, square := m } ∧
        SquareRebuilt s { s with duty := s.duty - s.cfg.dutyStep, square := m } (s.duty - s.cfg.dutyStep)) ∧
    (s.shape ≠ .square ∨ s.duty = s.cfg.dutyMin → exec .keystar s = .next s) ∧
    (s.shape = .square → s.duty ≠ s.cfg.dutyMax →
      ∃ m, exec .keyhash s = .next { s with duty := s.duty + s.cfg.dutyStep, square := m } ∧
        SquareRebuilt s { s with duty := s.duty + s.cfg.dutyStep, square := m } (s.duty + s.cfg.dutyStep)) ∧
    (s.shape ≠ .square ∨ s.duty = s.cfg.dutyMax → exec .keyhash s = .next s)

/-- A command presented while `cmd_ready` = 0, that is outside RUN, is not accepted and changes nothing, whichever command it is
(the spec's decision D23, log 3). -/
def Obligations.CommandsOutsideRunChangeNothing : Prop :=
  ∀ (i : Instr) (s : State), IsCommand i → s.cfg.wf = true →
    (s.cmdReady = true ↔ s.phase = .run) ∧ (s.cmdReady = false → exec i s = .next s)

/-- No command reads or writes CURSOR or TICK_PEND, appends to the trace, or halts: run with another cursor, flag and trace it
does the same to everything else and keeps those. -/
def Obligations.CommandsNeitherReadNorWriteDispatcherState : Prop :=
  ∀ (i : Instr) (s : State), IsCommand i → s.cfg.wf = true →
    ∃ t, exec i s = .next t ∧ t.cursor = s.cursor ∧ t.tickPend = s.tickPend ∧ t.trace = s.trace ∧ t.phase = s.phase ∧
      ∀ (c : Nat) (b : Bool) (l : List TraceEvent),
        exec i { s with cursor := c, tickPend := b, trace := l } = .next { t with cursor := c, tickPend := b, trace := l }

/-- While another shape than Square is active, DUTY and the Square table keep their values through every event but RESET and the
reset-all command (code 0xC0 and key '9'), and a return to Square changes neither. -/
def Obligations.DutyIsStickyAcrossOtherShapes : Prop :=
  ∀ (s : State) (e : Event) (rest : List Event), s.cfg.wf = true → s.phase = .run → s.shape ≠ .square →
    s.schedule = e :: rest → decodeEvent e ≠ .instr .reset → decodeEvent e ≠ .instr .rstall → decodeEvent e ≠ .instr .key9 →
    ∃ t, step s = .next t ∧ t.duty = s.duty ∧ t.square = s.square

/-! ## Builds, sink and table memory -/

/-- BUILDSINE writes the Sine table from SINE_ROM and nothing else, and with the property 42_table_builder.md section 2 names every
entry lies within one half of `SINE_AMPL · sin(4π·i / LEN_SINE) + SINE_DC`. The table as a parameter is the spec's decision D14. -/
def Obligations.BuildSineFillsSineTable : Prop :=
  ∀ s : State, s.Sound →
    ∃ m, exec .buildsine s = .next { s with sine := m } ∧ OtherTablesKept s { s with sine := m } .sine ∧
      (∀ i < s.cfg.lenSine, State.entry { s with sine := m } .sine i = some (s.cfg.sineRom.getD i 0)) ∧
      (s.cfg.SineHalfUnit → ∀ i < s.cfg.lenSine, ∃ v : Nat, State.entry { s with sine := m } .sine i = some v ∧
        |(v : ℝ) - ((s.cfg.sineAmpl : ℝ) * Real.sin (4 * Real.pi * i / s.cfg.lenSine) + s.cfg.sineDc)| ≤ 1 / 2)

/-- When SINE_ROM is the formula's table for some rounding to a nearest integer and LEN_SINE is even, the second half of the Sine
table repeats the first, and entry 0 is SINE_DC (corner cases of 42_table_builder.md section 2; log 7). -/
def Obligations.SineTableHoldsTwoEqualPeriods : Prop :=
  ∀ (s : State) (h : Nat), s.Sound → s.cfg.SineRounded → s.cfg.lenSine = 2 * h →
    ∃ t, exec .buildsine s = .next t ∧ t.entry .sine 0 = some s.cfg.sineDc ∧
      ∀ i < h, t.entry .sine (i + h) = t.entry .sine i

/-- R162: BUILDSQUARE t writes the high level below `t` and the low level from `t` on, for every natural number `t`, and nothing
else; `t` = 0 gives all low and `t` at or past the length all high. -/
def Obligations.BuildSquareFillsSquareTable : Prop :=
  ∀ (s : State) (t : Nat), s.Sound →
    ∃ m, exec (.buildsquare t) s = .next { s with square := m } ∧ SquareRebuilt s { s with square := m } t

/-- BUILDSAW writes the ramp `SAW_SLOPE · i` and nothing else. The natural-number slope is the spec's decision D13. -/
def Obligations.BuildSawFillsSawtoothTable : Prop :=
  ∀ s : State, s.Sound →
    ∃ m, exec .buildsaw s = .next { s with saw := m } ∧ OtherTablesKept s { s with saw := m } .sawtooth ∧
      ∀ i < s.cfg.lenSaw, State.entry { s with saw := m } .sawtooth i = some (s.cfg.sawSlope * i)

/-- BUILDTRI writes the ascending segment up to the first breakpoint and the descending one from the second, and neither the
entries strictly between nor anything else. The linear forms and the written breakpoints are the spec's decision D12. -/
def Obligations.BuildTriFillsTwoSegments : Prop :=
  ∀ s : State, s.Sound →
    ∃ m, exec .buildtri s = .next { s with tri := m } ∧ OtherTablesKept s { s with tri := m } .triangle ∧
      (∀ i ≤ s.cfg.triBp1, State.entry { s with tri := m } .triangle i = some (s.cfg.triUpBase + s.cfg.triUpSlope * i)) ∧
      (∀ i, s.cfg.triBp1 < i → i < s.cfg.triBp2 →
        lutRead { s with tri := m } .triangle i = lutRead s .triangle i) ∧
      ∀ i, s.cfg.triBp2 ≤ i → i < s.cfg.depthTri →
        State.entry { s with tri := m } .triangle i = some (s.cfg.triDnBase - s.cfg.triDnSlope * (i - s.cfg.triBp2))

/-- R181: TRYSEND appends `sent((SINK_PREFIX << 12) | v)` and answers true when the sink is ready, appends `dropped` and answers
false when it is not, and changes nothing else. The frame's layout and the trace are the spec's decisions D22 and D30; as an
operation of its own TRYSEND is the model's (log 9). -/
def Obligations.TrySendAppendsSentOrDropped : Prop :=
  ∀ (s : State) (v : Code), s.cfg.wf = true →
    (exec (.trysend v true) s
        = .next { s with trace := s.trace ++ [.sent ((BitVec.ofNat 16 s.cfg.sinkPrefix <<< 12) ||| v.setWidth 16)] } ∧
      (trySend s v true).2 = true) ∧
    (exec (.trysend v false) s = .next { s with trace := s.trace ++ [.dropped] } ∧ (trySend s v false).2 = false)

/-- The frame holds SINK_PREFIX in bits 15:12 and the code in bits 11:0, each whole. The layout is the spec's decision D22. -/
def Obligations.FrameHoldsPrefixAndCode : Prop :=
  ∀ (c : Cfg) (v : Code), c.wf = true →
    (frameOf c v).toNat = c.sinkPrefix * 4096 + v.toNat ∧
    ((frameOf c v).extractLsb' 12 4).toNat = c.sinkPrefix ∧ (frameOf c v).extractLsb' 0 12 = v

/-- A LUT write changes the entry written and no other, and no register; a read after it gives the code written (20_memory.md
section 5). The canonical form of the tables, the model's own, is kept. -/
def Obligations.LutWriteChangesOneEntry : Prop :=
  ∀ (s : State) (sh : Shape) (i : Nat) (v : Code), s.Sound → i < s.cfg.depth sh →
    ∃ t, lutWrite s sh i v = .ok t ∧ t.Sound ∧ lutRead t sh i = .ok v ∧
      (∀ k j, k ≠ sh ∨ j ≠ i → lutRead t k j = lutRead s k j) ∧
      t = { s with sine := t.sine, square := t.square, tri := t.tri, saw := t.saw }

/-- An access at or past a table's depth is the model's fault, for a read and for a write (the spec's decision D10, log 15); one
below it is not. -/
def Obligations.UnmappedLutAccessFaults : Prop :=
  ∀ (s : State) (sh : Shape) (i : Nat) (v : Code),
    (lutRead s sh i = .error (.lutUnmapped sh i) ↔ s.cfg.depth sh ≤ i) ∧
    (lutWrite s sh i v = .error (.lutUnmapped sh i) ↔ s.cfg.depth sh ≤ i)

/-- The read and the write through the flat address `{sel, idx}` are those of the named entry, for every index of `W_C` bits, and
an index below a period length has so many. The flat form is the spec's decision D10 (log 5). A number of more than `2 + W_C` bits
is no address, and the model refuses it, which is its own choice (log 19). -/
def Obligations.FlatAddressNamesTheEntry : Prop :=
  ∀ (s : State) (sh : Shape) (i : Nat), s.cfg.wf = true →
    (i < 2 ^ s.cfg.cursorWidth →
      lutAddr s.cfg sh i < 2 ^ (2 + s.cfg.cursorWidth) ∧
      memRead s (lutAddr s.cfg sh i) = lutRead s sh i ∧
      ∀ v, memWrite s (lutAddr s.cfg sh i) v = lutWrite s sh i v) ∧
    (i < s.cfg.len sh → i < 2 ^ s.cfg.cursorWidth ∧ i < s.cfg.depth sh) ∧
    ∀ addr, 2 ^ (2 + s.cfg.cursorWidth) ≤ addr →
      memRead s addr = .error (.lutAddrTooWide addr) ∧ ∀ v, memWrite s addr v = .error (.lutAddrTooWide addr)

/-! ## Whole-machine rules -/

/-- R112, R194: nothing can go wrong inside the block. No operation faults in any state, and under a well-formed configuration
every operation, TICK among them, ends in a next state. That one does where the operation is not enabled is the model's choice
(log 3), and so is that TRYSEND and the builds can be performed on their own (log 9). -/
def Obligations.NoOperationFaults : Prop :=
  ∀ (i : Instr) (s : State), (∀ f, exec i s ≠ .fault f) ∧ (s.cfg.wf = true → ∃ t, exec i s = .next t)

/-- The invariant holds in the reset state of every well-formed configuration, and in `State.reset`. -/
def Obligations.ResetStateMeetsInvariant : Prop :=
  (∀ (c : Cfg) (l : List Event), c.wf = true → State.Inv { State.resetOf c with schedule := l }) ∧ State.reset.Inv

/-- Every step keeps the invariant: the tables in canonical form, DUTY in range and aligned, CURSOR bounded, the Square table that
of DUTY and the others as built whenever PHASE = RUN, the frames' prefix, and the untouched reset state outside RUN. -/
def Obligations.StepKeepsInvariant : Prop :=
  ∀ s t : State, s.Inv → step s = .next t → t.Inv

/-- Whatever the agents do, a block of a well-formed configuration only ever reaches states that meet the invariant. -/
def Obligations.ReachableStatesMeetInvariant : Prop :=
  ∀ (c : Cfg) (s : State), c.wf = true → Reachable c s → s.Inv ∧ s.cfg = c

/-- Whatever the agents do, no step of a run from RESET faults or is refused, however many steps are taken. A step past the end of
the schedule, and one on an event whose operation is not enabled, as every one but RESET is in HALT, are the model's: they change
nothing but the schedule (log 2, log 3). -/
def Obligations.RunsFromResetNeverStop : Prop :=
  ∀ (c : Cfg) (events : List Event) (k : Nat), c.wf = true →
    ∃ t, steps k { State.resetOf c with schedule := events } = .next t ∧ t.schedule = events.drop k

/-- The register table of 10_state.md section 1: in every reachable state DUTY lies in DUTY_MIN..DUTY_MAX, is congruent to DUTY_50
modulo DUTY_STEP and fits `W_D` bits, FREQ lies in 1..5, and CURSOR lies in 0..M + 4 and fits `W_C` bits. -/
def Obligations.RegistersStayInTheirLegalRanges : Prop :=
  ∀ (c : Cfg) (s : State), c.wf = true → Reachable c s →
    c.dutyMin ≤ s.duty ∧ s.duty ≤ c.dutyMax ∧ s.duty % c.dutyStep = c.duty50 % c.dutyStep ∧ s.duty < 2 ^ c.dutyWidth ∧
    1 ≤ s.freq.toNat ∧ s.freq.toNat ≤ 5 ∧ s.cursor ≤ c.maxLen + 4 ∧ s.cursor < 2 ^ c.cursorWidth

/-- Each agent's step writes only what is its own: the timer TICK_PEND; the dispatcher CURSOR, TICK_PEND and the trace; the command
source SHAPE, FREQ, DUTY and the Square table; INIT PHASE and the tables. Only RESET writes more. That the environment performs
INIT is the model's choice (log 20). -/
def Obligations.AgentsWriteOnlyTheirOwnState : Prop :=
  ∀ (s t : State) (e : Event) (rest : List Event), s.schedule = e :: rest → step s = .next t →
    (e.agent = .timer → t = { s with schedule := rest, tickPend := t.tickPend }) ∧
    (e.agent = .dispatcher →
      t = { s with schedule := rest, cursor := t.cursor, tickPend := t.tickPend, trace := t.trace }) ∧
    (e.agent = .commandSource →
      t = { s with schedule := rest, shape := t.shape, freq := t.freq, duty := t.duty, square := t.square }) ∧
    (e.agent = .environment → e ≠ .rst →
      t = { s with schedule := rest, phase := t.phase, sine := t.sine, square := t.square, tri := t.tri, saw := t.saw }) ∧
    t.cfg = s.cfg ∧ t.schedule = rest

/-- Invariant (d): in RUN the Sine, Triangle and Sawtooth tables never change, and RUN is not left, whatever happens but RESET. -/
def Obligations.OtherTablesImmutableInRun : Prop :=
  ∀ (k : Nat) (s t : State), s.phase = .run → (∀ e ∈ s.schedule, e ≠ .rst) → steps k s = .next t →
    t.phase = .run ∧ t.sine = s.sine ∧ t.tri = s.tri ∧ t.saw = s.saw

/-- A sample leaves the block only on a timer event: over any run without RESET the trace grows by at most one element per timer
event, and one more if a tick was pending at the start. -/
def Obligations.SamplesNeverOutnumberTimerEvents : Prop :=
  ∀ (k : Nat) (s t : State), (∀ e ∈ s.schedule, e ≠ .rst) → steps k s = .next t →
    ∃ new, t.trace = s.trace ++ new ∧
      new.length + (if t.tickPend then 1 else 0)
        ≤ (s.schedule.take k).count .timerEvt + (if s.tickPend then 1 else 0)

/-- The period of the index sequence: with SHAPE and FREQ held, from a state whose next fetch is at index 0, after `j` ticks the
next fetch is at `(j mod k) · n` with `k = ceil(N / n)`, always below the length, and at 0 again exactly after every `k` ticks,
the sink ready or not. With ADVANCE_ON_DROP, the spec's decision D20. -/
def Obligations.IndexSequenceHasCeilPeriod : Prop :=
  ∀ (s : State) (rdys : List Bool) (rest : List Event), s.Inv → s.phase = .run → s.cfg.advanceOnDrop = true →
    s.fetchIndex = 0 → s.schedule = tickEvents rdys ++ rest →
    ∃ t, steps (2 * rdys.length) s = .next t ∧ t.schedule = rest ∧ t.shape = s.shape ∧ t.freq = s.freq ∧
      t.fetchIndex = rdys.length % passTicks (s.cfg.len s.shape) s.freq.toNat * s.freq.toNat ∧
      t.fetchIndex < s.cfg.len s.shape ∧
      (t.fetchIndex = 0 ↔ passTicks (s.cfg.len s.shape) s.freq.toNat ∣ rdys.length) ∧
      s.cfg.len s.shape ≤ passTicks (s.cfg.len s.shape) s.freq.toNat * s.freq.toNat ∧
      passTicks (s.cfg.len s.shape) s.freq.toNat * s.freq.toNat < s.cfg.len s.shape + s.freq.toNat

/-- From a start index `c0` inside the table the fetch indices are `c0, c0 + n, …` up to the last one below the length, then 0.
With ADVANCE_ON_DROP, the spec's decision D20. -/
def Obligations.PassFromInsideTheTableEndsAtZero : Prop :=
  ∀ (s : State) (rdys : List Bool) (rest : List Event), s.Inv → s.phase = .run → s.cfg.advanceOnDrop = true →
    s.schedule = tickEvents rdys ++ rest →
    s.fetchIndex + (rdys.length - 1) * s.freq.toNat < s.cfg.len s.shape →
    ∃ t, steps (2 * rdys.length) s = .next t ∧
      t.fetchIndex = if s.fetchIndex + rdys.length * s.freq.toNat < s.cfg.len s.shape
        then s.fetchIndex + rdys.length * s.freq.toNat else 0

/-- The output: with SHAPE and FREQ held, from a state whose next fetch is at index 0, the `j`-th tick appends the frame of the
table's entry `(j mod k) · n`, `k = ceil(N / n)`, or `dropped` where the sink is busy, and a drop does not shift what follows.
With ADVANCE_ON_DROP, the spec's decision D20. -/
def Obligations.TicksPlayTheTableThrough : Prop :=
  ∀ (s : State) (rdys : List Bool) (rest : List Event), s.Inv → s.phase = .run → s.cfg.advanceOnDrop = true →
    s.fetchIndex = 0 → s.schedule = tickEvents rdys ++ rest →
    ∃ t new, steps (2 * rdys.length) s = .next t ∧ t.trace = s.trace ++ new ∧ new.length = rdys.length ∧
      ∀ j (h : j < rdys.length), new[j]? = some (sampleEvent s s.shape
        (j % passTicks (s.cfg.len s.shape) s.freq.toNat * s.freq.toNat) rdys[j])

/-- The order at a coincidence: in one clock period a serviceable tick comes before the command, so TICK fetches from the table as
it was; RESET comes before everything, and nothing presented with it has an effect. The order is the spec's decision D25. -/
def Obligations.ClockPeriodServicesTickBeforeCommand : Prop :=
  ∀ (s : State) (p : ClockPeriod) (rest : List Event), s.cfg.wf = true → s.schedule = p.events ++ rest →
    (p.rst = true → steps p.events.length s = .next { State.resetOf s.cfg with schedule := rest }) ∧
    (p.rst = false → s.phase = .run → (s.tickPend = true ∨ p.timerEvt = true) →
      ∃ t, steps p.events.length s = .next t ∧ t.schedule = rest ∧ t.tickPend = false ∧
        t.trace = s.trace ++ [sampleEvent s s.shape s.fetchIndex p.sinkReady])
end

