-- ==== Sys2Proof/Laws/State.lean ====
section
/-! SUPPORT. One lemma per field per register write, each by definition, so that no later proof unfolds a write of the state. -/

namespace Sys2Proof.Machine

open Sys2Proof

/-! `setPhase` writes `phase` only. -/

@[simp] theorem State.setPhase_phase (s : State) (p : Phase) : (s.setPhase p).phase = p := rfl
@[simp] theorem State.setPhase_shape (s : State) (p : Phase) : (s.setPhase p).shape = s.shape := rfl
@[simp] theorem State.setPhase_freq (s : State) (p : Phase) : (s.setPhase p).freq = s.freq := rfl
@[simp] theorem State.setPhase_duty (s : State) (p : Phase) : (s.setPhase p).duty = s.duty := rfl
@[simp] theorem State.setPhase_cursor (s : State) (p : Phase) : (s.setPhase p).cursor = s.cursor := rfl
@[simp] theorem State.setPhase_tickPend (s : State) (p : Phase) : (s.setPhase p).tickPend = s.tickPend := rfl
@[simp] theorem State.setPhase_sine (s : State) (p : Phase) : (s.setPhase p).sine = s.sine := rfl
@[simp] theorem State.setPhase_square (s : State) (p : Phase) : (s.setPhase p).square = s.square := rfl
@[simp] theorem State.setPhase_tri (s : State) (p : Phase) : (s.setPhase p).tri = s.tri := rfl
@[simp] theorem State.setPhase_saw (s : State) (p : Phase) : (s.setPhase p).saw = s.saw := rfl
@[simp] theorem State.setPhase_trace (s : State) (p : Phase) : (s.setPhase p).trace = s.trace := rfl
@[simp] theorem State.setPhase_cfg (s : State) (p : Phase) : (s.setPhase p).cfg = s.cfg := rfl
@[simp] theorem State.setPhase_schedule (s : State) (p : Phase) : (s.setPhase p).schedule = s.schedule := rfl
@[simp] theorem State.setPhase_table (s : State) (p : Phase) (k : Shape) : (s.setPhase p).table k = s.table k := by cases k <;> rfl

/-! `setShape` writes `shape` only. -/

@[simp] theorem State.setShape_phase (s : State) (sh : Shape) : (s.setShape sh).phase = s.phase := rfl
@[simp] theorem State.setShape_shape (s : State) (sh : Shape) : (s.setShape sh).shape = sh := rfl
@[simp] theorem State.setShape_freq (s : State) (sh : Shape) : (s.setShape sh).freq = s.freq := rfl
@[simp] theorem State.setShape_duty (s : State) (sh : Shape) : (s.setShape sh).duty = s.duty := rfl
@[simp] theorem State.setShape_cursor (s : State) (sh : Shape) : (s.setShape sh).cursor = s.cursor := rfl
@[simp] theorem State.setShape_tickPend (s : State) (sh : Shape) : (s.setShape sh).tickPend = s.tickPend := rfl
@[simp] theorem State.setShape_sine (s : State) (sh : Shape) : (s.setShape sh).sine = s.sine := rfl
@[simp] theorem State.setShape_square (s : State) (sh : Shape) : (s.setShape sh).square = s.square := rfl
@[simp] theorem State.setShape_tri (s : State) (sh : Shape) : (s.setShape sh).tri = s.tri := rfl
@[simp] theorem State.setShape_saw (s : State) (sh : Shape) : (s.setShape sh).saw = s.saw := rfl
@[simp] theorem State.setShape_trace (s : State) (sh : Shape) : (s.setShape sh).trace = s.trace := rfl
@[simp] theorem State.setShape_cfg (s : State) (sh : Shape) : (s.setShape sh).cfg = s.cfg := rfl
@[simp] theorem State.setShape_schedule (s : State) (sh : Shape) : (s.setShape sh).schedule = s.schedule := rfl
@[simp] theorem State.setShape_table (s : State) (sh : Shape) (k : Shape) : (s.setShape sh).table k = s.table k := by cases k <;> rfl

/-! `setFreq` writes `freq` only. -/

@[simp] theorem State.setFreq_phase (s : State) (n : FreqIndex) : (s.setFreq n).phase = s.phase := rfl
@[simp] theorem State.setFreq_shape (s : State) (n : FreqIndex) : (s.setFreq n).shape = s.shape := rfl
@[simp] theorem State.setFreq_freq (s : State) (n : FreqIndex) : (s.setFreq n).freq = n := rfl
@[simp] theorem State.setFreq_duty (s : State) (n : FreqIndex) : (s.setFreq n).duty = s.duty := rfl
@[simp] theorem State.setFreq_cursor (s : State) (n : FreqIndex) : (s.setFreq n).cursor = s.cursor := rfl
@[simp] theorem State.setFreq_tickPend (s : State) (n : FreqIndex) : (s.setFreq n).tickPend = s.tickPend := rfl
@[simp] theorem State.setFreq_sine (s : State) (n : FreqIndex) : (s.setFreq n).sine = s.sine := rfl
@[simp] theorem State.setFreq_square (s : State) (n : FreqIndex) : (s.setFreq n).square = s.square := rfl
@[simp] theorem State.setFreq_tri (s : State) (n : FreqIndex) : (s.setFreq n).tri = s.tri := rfl
@[simp] theorem State.setFreq_saw (s : State) (n : FreqIndex) : (s.setFreq n).saw = s.saw := rfl
@[simp] theorem State.setFreq_trace (s : State) (n : FreqIndex) : (s.setFreq n).trace = s.trace := rfl
@[simp] theorem State.setFreq_cfg (s : State) (n : FreqIndex) : (s.setFreq n).cfg = s.cfg := rfl
@[simp] theorem State.setFreq_schedule (s : State) (n : FreqIndex) : (s.setFreq n).schedule = s.schedule := rfl
@[simp] theorem State.setFreq_table (s : State) (n : FreqIndex) (k : Shape) : (s.setFreq n).table k = s.table k := by cases k <;> rfl

/-! `setDuty` writes `duty` only. -/

@[simp] theorem State.setDuty_phase (s : State) (d : Nat) : (s.setDuty d).phase = s.phase := rfl
@[simp] theorem State.setDuty_shape (s : State) (d : Nat) : (s.setDuty d).shape = s.shape := rfl
@[simp] theorem State.setDuty_freq (s : State) (d : Nat) : (s.setDuty d).freq = s.freq := rfl
@[simp] theorem State.setDuty_duty (s : State) (d : Nat) : (s.setDuty d).duty = d := rfl
@[simp] theorem State.setDuty_cursor (s : State) (d : Nat) : (s.setDuty d).cursor = s.cursor := rfl
@[simp] theorem State.setDuty_tickPend (s : State) (d : Nat) : (s.setDuty d).tickPend = s.tickPend := rfl
@[simp] theorem State.setDuty_sine (s : State) (d : Nat) : (s.setDuty d).sine = s.sine := rfl
@[simp] theorem State.setDuty_square (s : State) (d : Nat) : (s.setDuty d).square = s.square := rfl
@[simp] theorem State.setDuty_tri (s : State) (d : Nat) : (s.setDuty d).tri = s.tri := rfl
@[simp] theorem State.setDuty_saw (s : State) (d : Nat) : (s.setDuty d).saw = s.saw := rfl
@[simp] theorem State.setDuty_trace (s : State) (d : Nat) : (s.setDuty d).trace = s.trace := rfl
@[simp] theorem State.setDuty_cfg (s : State) (d : Nat) : (s.setDuty d).cfg = s.cfg := rfl
@[simp] theorem State.setDuty_schedule (s : State) (d : Nat) : (s.setDuty d).schedule = s.schedule := rfl
@[simp] theorem State.setDuty_table (s : State) (d : Nat) (k : Shape) : (s.setDuty d).table k = s.table k := by cases k <;> rfl

/-! `setCursor` writes `cursor` only. -/

@[simp] theorem State.setCursor_phase (s : State) (c : Nat) : (s.setCursor c).phase = s.phase := rfl
@[simp] theorem State.setCursor_shape (s : State) (c : Nat) : (s.setCursor c).shape = s.shape := rfl
@[simp] theorem State.setCursor_freq (s : State) (c : Nat) : (s.setCursor c).freq = s.freq := rfl
@[simp] theorem State.setCursor_duty (s : State) (c : Nat) : (s.setCursor c).duty = s.duty := rfl
@[simp] theorem State.setCursor_cursor (s : State) (c : Nat) : (s.setCursor c).cursor = c := rfl
@[simp] theorem State.setCursor_tickPend (s : State) (c : Nat) : (s.setCursor c).tickPend = s.tickPend := rfl
@[simp] theorem State.setCursor_sine (s : State) (c : Nat) : (s.setCursor c).sine = s.sine := rfl
@[simp] theorem State.setCursor_square (s : State) (c : Nat) : (s.setCursor c).square = s.square := rfl
@[simp] theorem State.setCursor_tri (s : State) (c : Nat) : (s.setCursor c).tri = s.tri := rfl
@[simp] theorem State.setCursor_saw (s : State) (c : Nat) : (s.setCursor c).saw = s.saw := rfl
@[simp] theorem State.setCursor_trace (s : State) (c : Nat) : (s.setCursor c).trace = s.trace := rfl
@[simp] theorem State.setCursor_cfg (s : State) (c : Nat) : (s.setCursor c).cfg = s.cfg := rfl
@[simp] theorem State.setCursor_schedule (s : State) (c : Nat) : (s.setCursor c).schedule = s.schedule := rfl
@[simp] theorem State.setCursor_table (s : State) (c : Nat) (k : Shape) : (s.setCursor c).table k = s.table k := by cases k <;> rfl

/-! `setTickPend` writes `tickPend` only. -/

@[simp] theorem State.setTickPend_phase (s : State) (b : Bool) : (s.setTickPend b).phase = s.phase := rfl
@[simp] theorem State.setTickPend_shape (s : State) (b : Bool) : (s.setTickPend b).shape = s.shape := rfl
@[simp] theorem State.setTickPend_freq (s : State) (b : Bool) : (s.setTickPend b).freq = s.freq := rfl
@[simp] theorem State.setTickPend_duty (s : State) (b : Bool) : (s.setTickPend b).duty = s.duty := rfl
@[simp] theorem State.setTickPend_cursor (s : State) (b : Bool) : (s.setTickPend b).cursor = s.cursor := rfl
@[simp] theorem State.setTickPend_tickPend (s : State) (b : Bool) : (s.setTickPend b).tickPend = b := rfl
@[simp] theorem State.setTickPend_sine (s : State) (b : Bool) : (s.setTickPend b).sine = s.sine := rfl
@[simp] theorem State.setTickPend_square (s : State) (b : Bool) : (s.setTickPend b).square = s.square := rfl
@[simp] theorem State.setTickPend_tri (s : State) (b : Bool) : (s.setTickPend b).tri = s.tri := rfl
@[simp] theorem State.setTickPend_saw (s : State) (b : Bool) : (s.setTickPend b).saw = s.saw := rfl
@[simp] theorem State.setTickPend_trace (s : State) (b : Bool) : (s.setTickPend b).trace = s.trace := rfl
@[simp] theorem State.setTickPend_cfg (s : State) (b : Bool) : (s.setTickPend b).cfg = s.cfg := rfl
@[simp] theorem State.setTickPend_schedule (s : State) (b : Bool) : (s.setTickPend b).schedule = s.schedule := rfl
@[simp] theorem State.setTickPend_table (s : State) (b : Bool) (k : Shape) : (s.setTickPend b).table k = s.table k := by cases k <;> rfl

/-! `emit` writes `trace` only. -/

@[simp] theorem State.emit_phase (s : State) (e : TraceEvent) : (s.emit e).phase = s.phase := rfl
@[simp] theorem State.emit_shape (s : State) (e : TraceEvent) : (s.emit e).shape = s.shape := rfl
@[simp] theorem State.emit_freq (s : State) (e : TraceEvent) : (s.emit e).freq = s.freq := rfl
@[simp] theorem State.emit_duty (s : State) (e : TraceEvent) : (s.emit e).duty = s.duty := rfl
@[simp] theorem State.emit_cursor (s : State) (e : TraceEvent) : (s.emit e).cursor = s.cursor := rfl
@[simp] theorem State.emit_tickPend (s : State) (e : TraceEvent) : (s.emit e).tickPend = s.tickPend := rfl
@[simp] theorem State.emit_sine (s : State) (e : TraceEvent) : (s.emit e).sine = s.sine := rfl
@[simp] theorem State.emit_square (s : State) (e : TraceEvent) : (s.emit e).square = s.square := rfl
@[simp] theorem State.emit_tri (s : State) (e : TraceEvent) : (s.emit e).tri = s.tri := rfl
@[simp] theorem State.emit_saw (s : State) (e : TraceEvent) : (s.emit e).saw = s.saw := rfl
@[simp] theorem State.emit_trace (s : State) (e : TraceEvent) : (s.emit e).trace = s.trace ++ [e] := rfl
@[simp] theorem State.emit_cfg (s : State) (e : TraceEvent) : (s.emit e).cfg = s.cfg := rfl
@[simp] theorem State.emit_schedule (s : State) (e : TraceEvent) : (s.emit e).schedule = s.schedule := rfl
@[simp] theorem State.emit_table (s : State) (e : TraceEvent) (k : Shape) : (s.emit e).table k = s.table k := by cases k <;> rfl

/-! `setSchedule` writes `schedule` only. -/

@[simp] theorem State.setSchedule_phase (s : State) (l : List Event) : (s.setSchedule l).phase = s.phase := rfl
@[simp] theorem State.setSchedule_shape (s : State) (l : List Event) : (s.setSchedule l).shape = s.shape := rfl
@[simp] theorem State.setSchedule_freq (s : State) (l : List Event) : (s.setSchedule l).freq = s.freq := rfl
@[simp] theorem State.setSchedule_duty (s : State) (l : List Event) : (s.setSchedule l).duty = s.duty := rfl
@[simp] theorem State.setSchedule_cursor (s : State) (l : List Event) : (s.setSchedule l).cursor = s.cursor := rfl
@[simp] theorem State.setSchedule_tickPend (s : State) (l : List Event) : (s.setSchedule l).tickPend = s.tickPend := rfl
@[simp] theorem State.setSchedule_sine (s : State) (l : List Event) : (s.setSchedule l).sine = s.sine := rfl
@[simp] theorem State.setSchedule_square (s : State) (l : List Event) : (s.setSchedule l).square = s.square := rfl
@[simp] theorem State.setSchedule_tri (s : State) (l : List Event) : (s.setSchedule l).tri = s.tri := rfl
@[simp] theorem State.setSchedule_saw (s : State) (l : List Event) : (s.setSchedule l).saw = s.saw := rfl
@[simp] theorem State.setSchedule_trace (s : State) (l : List Event) : (s.setSchedule l).trace = s.trace := rfl
@[simp] theorem State.setSchedule_cfg (s : State) (l : List Event) : (s.setSchedule l).cfg = s.cfg := rfl
@[simp] theorem State.setSchedule_schedule (s : State) (l : List Event) : (s.setSchedule l).schedule = l := rfl
@[simp] theorem State.setSchedule_table (s : State) (l : List Event) (k : Shape) : (s.setSchedule l).table k = s.table k := by cases k <;> rfl

/-! `setTable` writes the table of one shape only. -/

@[simp] theorem State.setTable_phase (s : State) (sh : Shape) (m : Memory) : (s.setTable sh m).phase = s.phase := by cases sh <;> rfl
@[simp] theorem State.setTable_shape (s : State) (sh : Shape) (m : Memory) : (s.setTable sh m).shape = s.shape := by cases sh <;> rfl
@[simp] theorem State.setTable_freq (s : State) (sh : Shape) (m : Memory) : (s.setTable sh m).freq = s.freq := by cases sh <;> rfl
@[simp] theorem State.setTable_duty (s : State) (sh : Shape) (m : Memory) : (s.setTable sh m).duty = s.duty := by cases sh <;> rfl
@[simp] theorem State.setTable_cursor (s : State) (sh : Shape) (m : Memory) : (s.setTable sh m).cursor = s.cursor := by cases sh <;> rfl
@[simp] theorem State.setTable_tickPend (s : State) (sh : Shape) (m : Memory) : (s.setTable sh m).tickPend = s.tickPend := by cases sh <;> rfl
@[simp] theorem State.setTable_trace (s : State) (sh : Shape) (m : Memory) : (s.setTable sh m).trace = s.trace := by cases sh <;> rfl
@[simp] theorem State.setTable_cfg (s : State) (sh : Shape) (m : Memory) : (s.setTable sh m).cfg = s.cfg := by cases sh <;> rfl
@[simp] theorem State.setTable_schedule (s : State) (sh : Shape) (m : Memory) : (s.setTable sh m).schedule = s.schedule := by cases sh <;> rfl

theorem State.setTable_table (s : State) (sh k : Shape) (m : Memory) :
    (s.setTable sh m).table k = if k = sh then m else s.table k := by cases sh <;> cases k <;> rfl

@[simp] theorem State.setTable_table_same (s : State) (sh : Shape) (m : Memory) : (s.setTable sh m).table sh = m := by
  cases sh <;> rfl

theorem State.setTable_table_other (s : State) {sh k : Shape} (m : Memory) (h : k ≠ sh) :
    (s.setTable sh m).table k = s.table k := by simp [State.setTable_table, h]

/-- Two writes of one table: the later stands. -/
@[simp] theorem State.setTable_setTable (s : State) (sh : Shape) (m m' : Memory) :
    (s.setTable sh m).setTable sh m' = s.setTable sh m' := by cases sh <;> rfl

/-- Writing back what a table holds changes nothing. -/
@[simp] theorem State.setTable_self (s : State) (sh : Shape) : s.setTable sh (s.table sh) = s := by cases sh <;> rfl

/-- Setting the schedule to what it is changes nothing. -/
@[simp] theorem State.setSchedule_self (s : State) : s.setSchedule s.schedule = s := rfl

@[simp] theorem State.setSchedule_setSchedule (s : State) (l l' : List Event) :
    (s.setSchedule l).setSchedule l' = s.setSchedule l' := rfl

/-! The reset state (R34). -/

@[simp] theorem State.resetOf_phase (c : Cfg) : (State.resetOf c).phase = .uninit := rfl
@[simp] theorem State.resetOf_shape (c : Cfg) : (State.resetOf c).shape = .square := rfl
@[simp] theorem State.resetOf_freq (c : Cfg) : (State.resetOf c).freq = .one := rfl
@[simp] theorem State.resetOf_duty (c : Cfg) : (State.resetOf c).duty = c.duty50 := rfl
@[simp] theorem State.resetOf_cursor (c : Cfg) : (State.resetOf c).cursor = 0 := rfl
@[simp] theorem State.resetOf_tickPend (c : Cfg) : (State.resetOf c).tickPend = false := rfl
@[simp] theorem State.resetOf_sine (c : Cfg) : (State.resetOf c).sine = [] := rfl
@[simp] theorem State.resetOf_square (c : Cfg) : (State.resetOf c).square = [] := rfl
@[simp] theorem State.resetOf_tri (c : Cfg) : (State.resetOf c).tri = [] := rfl
@[simp] theorem State.resetOf_saw (c : Cfg) : (State.resetOf c).saw = [] := rfl
@[simp] theorem State.resetOf_trace (c : Cfg) : (State.resetOf c).trace = [] := rfl
@[simp] theorem State.resetOf_cfg (c : Cfg) : (State.resetOf c).cfg = c := rfl
@[simp] theorem State.resetOf_schedule (c : Cfg) : (State.resetOf c).schedule = [] := rfl
@[simp] theorem State.resetOf_table (c : Cfg) (k : Shape) : (State.resetOf c).table k = [] := by cases k <;> rfl

end Sys2Proof.Machine
end

