-- ==== Sys2Proof/Laws/Memory.lean ====
section
/-! SUPPORT. The laws of table memory: the canonical form is kept, a read after a write, and equal contents are equal data. -/

namespace Sys2Proof.Machine

open Sys2Proof

namespace Memory

@[simp] theorem read_nil (i : Nat) : Memory.read [] i = 0 := rfl

@[simp] theorem wf_nil : Memory.wf [] = true := rfl

@[simp] theorem below_nil (n : Nat) : Memory.below [] n = true := rfl

theorem wf_cons {k : Nat} {v : Code} {m : Memory} :
    Memory.wf ((k, v) :: m) = true ↔ v ≠ 0 ∧ (∀ e ∈ m, k < e.1) ∧ Memory.wf m = true := by
  simp [Memory.wf, and_assoc]

theorem below_cons {k : Nat} {v : Code} {m : Memory} {n : Nat} :
    Memory.below ((k, v) :: m) n = true ↔ k < n ∧ Memory.below m n = true := by
  simp [Memory.below]

/-- An index that is listed nowhere reads as 0. -/
theorem read_eq_zero {m : Memory} {i : Nat} (h : ∀ e ∈ m, e.1 ≠ i) : Memory.read m i = 0 := by
  induction m with
  | nil => rfl
  | cons e m ih =>
    obtain ⟨k, v⟩ := e
    have hk : k ≠ i := h (k, v) (by simp)
    simp only [Memory.read, if_neg (Ne.symm hk)]
    exact ih fun e he => h e (by simp [he])

/-- An index at or past a bound on the listed indices reads as 0. -/
theorem read_of_below {m : Memory} {n i : Nat} (h : Memory.below m n = true) (hi : n ≤ i) : Memory.read m i = 0 := by
  refine read_eq_zero fun e he => ?_
  have := List.all_eq_true.mp h e he
  simp at this
  omega

/-- A write lists no index but its own and those that were listed. -/
theorem mem_write {m : Memory} {i : Nat} {v : Code} {e : Nat × Code} (h : e ∈ Memory.write m i v) : e = (i, v) ∨ e ∈ m := by
  induction m with
  | nil => unfold Memory.write at h; split at h <;> simp_all
  | cons d m ih =>
    obtain ⟨k, w⟩ := d
    unfold Memory.write at h
    split at h
    · split at h <;> simp_all
    · split at h
      · split at h
        · simp_all
        · simp at h; rcases h with h | h <;> simp [h]
      · simp at h
        rcases h with h | h
        · simp [h]
        · rcases ih h with h | h <;> simp [h]

/-- A write keeps the canonical form. -/
theorem write_wf {m : Memory} {i : Nat} {v : Code} (h : Memory.wf m = true) : Memory.wf (Memory.write m i v) = true := by
  induction m with
  | nil => unfold Memory.write; split <;> simp_all [Memory.wf]
  | cons d m ih =>
    obtain ⟨k, w⟩ := d
    obtain ⟨hw, hk, hm⟩ := wf_cons.mp h
    unfold Memory.write
    split
    · rename_i hi
      split
      · exact h
      · refine wf_cons.mpr ⟨‹_›, fun e he => ?_, h⟩
        rcases List.mem_cons.mp he with rfl | he
        · exact hi
        · exact Nat.lt_trans hi (hk e he)
    · rename_i hi
      split
      · subst i
        split
        · exact hm
        · exact wf_cons.mpr ⟨‹_›, hk, hm⟩
      · refine wf_cons.mpr ⟨hw, fun e he => ?_, ih hm⟩
        rcases mem_write he with rfl | he
        · show k < i
          omega
        · exact hk e he

/-- A write below a bound keeps the listed indices below it. -/
theorem write_below {m : Memory} {i n : Nat} {v : Code} (h : Memory.below m n = true) (hi : i < n) :
    Memory.below (Memory.write m i v) n = true := by
  refine List.all_eq_true.mpr fun e he => ?_
  rcases mem_write he with rfl | he
  · simpa using hi
  · exact List.all_eq_true.mp h e he

/-- A read after a write to the same index gives the code written. -/
theorem read_write_same {m : Memory} (i : Nat) (v : Code) (h : Memory.wf m = true) :
    Memory.read (Memory.write m i v) i = v := by
  induction m with
  | nil => unfold Memory.write; split <;> simp_all [Memory.read]
  | cons d m ih =>
    obtain ⟨k, w⟩ := d
    obtain ⟨-, hk, hm⟩ := wf_cons.mp h
    unfold Memory.write
    split
    · rename_i hi
      split
      · subst v
        refine read_eq_zero fun e he => ?_
        rcases List.mem_cons.mp he with rfl | he
        · exact Nat.ne_of_gt hi
        · have := hk e he
          omega
      · simp [Memory.read]
    · split
      · subst i
        split
        · subst v
          exact read_eq_zero fun e he => Nat.ne_of_gt (hk e he)
        · simp [Memory.read]
      · simp only [Memory.read, if_neg ‹¬ i = k›]
        exact ih hm

/-- A write leaves every other index alone. -/
theorem read_write_other {m : Memory} {i j : Nat} (v : Code) (h : j ≠ i) :
    Memory.read (Memory.write m i v) j = Memory.read m j := by
  induction m with
  | nil => unfold Memory.write; split <;> simp [Memory.read, h]
  | cons d m ih =>
    obtain ⟨k, w⟩ := d
    unfold Memory.write
    split
    · split <;> simp [Memory.read, h]
    · split
      · subst i
        split <;> simp [Memory.read, h]
      · simp only [Memory.read, ih]

/-- A write, read anywhere. -/
theorem read_write {m : Memory} (i j : Nat) (v : Code) (h : Memory.wf m = true) :
    Memory.read (Memory.write m i v) j = if j = i then v else Memory.read m j := by
  split
  · subst j; exact read_write_same i v h
  · exact read_write_other v ‹_›

/-- Memories in canonical form that read the same everywhere are the same data. -/
theorem ext_of_wf {m m' : Memory} (h : Memory.wf m = true) (h' : Memory.wf m' = true)
    (hr : ∀ i, Memory.read m i = Memory.read m' i) : m = m' := by
  induction m generalizing m' with
  | nil =>
    cases m' with
    | nil => rfl
    | cons d m' =>
      obtain ⟨k, w⟩ := d
      have := hr k
      simp [Memory.read] at this
      exact absurd this.symm (wf_cons.mp h').1
  | cons d m ih =>
    obtain ⟨k, w⟩ := d
    obtain ⟨hw, hk, hm⟩ := wf_cons.mp h
    cases m' with
    | nil =>
      have := hr k
      simp [Memory.read] at this
      exact absurd this hw
    | cons d' m' =>
      obtain ⟨k', w'⟩ := d'
      obtain ⟨hw', hk', hm'⟩ := wf_cons.mp h'
      have low : ∀ {n : Memory} {a b : Nat}, (∀ e ∈ n, a < e.1) → b ≤ a → Memory.read n b = 0 := fun hn hb =>
        read_eq_zero fun e he => Nat.ne_of_gt (Nat.lt_of_le_of_lt hb (hn e he))
      have hkk : k = k' := by
        rcases Nat.lt_trichotomy k k' with hlt | heq | hgt
        · have := hr k
          simp only [Memory.read, if_true, if_neg (Nat.ne_of_lt hlt), low hk' (Nat.le_of_lt hlt)] at this
          exact absurd this hw
        · exact heq
        · have := hr k'
          simp only [Memory.read, if_true, if_neg (Nat.ne_of_lt hgt), low hk (Nat.le_of_lt hgt)] at this
          exact absurd this.symm hw'
      subst hkk
      have hww : w = w' := by simpa [Memory.read] using hr k
      subst hww
      rw [ih hm hm' fun i => ?_]
      by_cases hi : i = k
      · subst hi
        rw [low hk (Nat.le_refl _), low hk' (Nat.le_refl _)]
      · simpa [Memory.read, hi] using hr i

end Memory

end Sys2Proof.Machine
end

