-- ==== Sys2Proof/Laws/Config.lean ====
section
/-! SUPPORT. What a well-formed configuration (R7) guarantees, one fact each: mapped indices, and values that fit an entry. -/

namespace Sys2Proof.Cfg

open Sys2Proof Sys2Proof.Machine

/-- The checks of R7 as propositions, for a proof to take what it needs. -/
structure Wf (c : Cfg) : Prop where
  lenPos : ∀ sh, 1 ≤ c.len sh
  triDepth : c.lenTri ≤ c.depthTri
  cursorWidth : c.maxLen + 5 ≤ 2 ^ c.cursorWidth
  dutyLow : c.dutyMin ≤ c.duty50
  dutyHigh : c.duty50 ≤ c.dutyMax
  dutyLen : c.dutyMax ≤ c.lenSquare
  stepPos : 1 ≤ c.dutyStep
  alignedLow : c.dutyStep ∣ c.duty50 - c.dutyMin
  alignedHigh : c.dutyStep ∣ c.dutyMax - c.duty50
  sqHigh : c.sqHigh ≤ codeMax
  sqLow : c.sqLow ≤ codeMax
  sineLength : c.sineRom.length = c.lenSine
  sineLe : ∀ v ∈ c.sineRom, v ≤ codeMax
  sawLe : c.sawSlope * (c.lenSaw - 1) ≤ codeMax
  bpOrder : c.triBp1 < c.triBp2
  bpDepth : c.triBp2 < c.depthTri
  upLe : ∀ i ≤ c.triBp1, triUpEntry c i ≤ codeMax
  downFits : ∀ k < c.depthTri - c.triBp2, c.triDnSlope * k ≤ c.triDnBase
  downLe : ∀ k < c.depthTri - c.triBp2, c.triDnBase - c.triDnSlope * k ≤ codeMax
  sinkPrefix : c.sinkPrefix < 16

/-- A configuration that passes the check has each of them. -/
theorem Wf.of_wf {c : Cfg} (h : c.wf = true) : c.Wf := by
  simp only [Cfg.wf, lengthsOk, cursorWidthOk, dutyRangeOk, dutyAlignedOk, squareLevelsOk, sineRomOk, sawOk, triangleOk,
    sinkPrefixOk, Bool.and_eq_true, decide_eq_true_eq, List.all_eq_true, List.mem_range] at h
  obtain ⟨⟨⟨⟨⟨⟨⟨⟨⟨⟨⟨⟨hs, hq⟩, hw⟩, ht⟩, hd⟩, hc⟩, ⟨⟨hl, hh⟩, hn⟩, hp⟩, ha, hb⟩, hi, ho⟩, hr, hv⟩, hsaw⟩, ⟨⟨h1, h2⟩, hu⟩, hdn⟩, hx⟩ := h
  exact {
    lenPos := fun sh => by cases sh <;> assumption
    triDepth := hd, cursorWidth := hc, dutyLow := hl, dutyHigh := hh, dutyLen := hn, stepPos := hp
    alignedLow := Nat.dvd_of_mod_eq_zero ha, alignedHigh := Nat.dvd_of_mod_eq_zero hb
    sqHigh := hi, sqLow := ho, sineLength := hr, sineLe := hv, sawLe := hsaw, bpOrder := h1, bpDepth := h2
    upLe := fun i hle => hu i (by omega)
    downFits := fun k hk => (hdn k hk).1
    downLe := fun k hk => (hdn k hk).2
    sinkPrefix := hx }

/-- Every period length is within the table's depth: what makes TICK's fetch mapped (R53). -/
theorem Wf.len_le_depth {c : Cfg} (h : c.Wf) (sh : Shape) : c.len sh ≤ c.depth sh := by
  cases sh <;> first | exact Nat.le_refl _ | exact h.triDepth

/-- No period length exceeds `M` (R109). -/
theorem len_le_maxLen (c : Cfg) (sh : Shape) : c.len sh ≤ c.maxLen := by
  cases sh <;> simp only [len, maxLen] <;> omega

theorem Wf.sineEntry_le {c : Cfg} (h : c.Wf) (i : Nat) : sineEntry c i ≤ codeMax := by
  unfold sineEntry
  rw [List.getD_eq_getElem?_getD]
  cases hi : c.sineRom[i]? with
  | none => simp
  | some v => exact h.sineLe v (List.mem_of_getElem? hi)

theorem Wf.squareEntry_le {c : Cfg} (h : c.Wf) (t i : Nat) : squareEntry c t i ≤ codeMax := by
  unfold squareEntry; split
  · exact h.sqHigh
  · exact h.sqLow

theorem Wf.sawEntry_le {c : Cfg} (h : c.Wf) {i : Nat} (hi : i < c.lenSaw) : sawEntry c i ≤ codeMax :=
  Nat.le_trans (Nat.mul_le_mul_left _ (by omega)) h.sawLe

theorem Wf.triDownEntry_le {c : Cfg} (h : c.Wf) {i : Nat} (h2 : c.triBp2 ≤ i) (hi : i < c.depthTri) :
    triDownEntry c i ≤ codeMax := h.downLe _ (by omega)

end Sys2Proof.Cfg

namespace Sys2Proof.Machine

/-- A value that fits an entry is stored whole (R183). -/
theorem codeOf_toNat {n : Nat} (h : n ≤ codeMax) : (codeOf n).toNat = n := by
  simp only [codeOf, BitVec.toNat_ofNat]
  exact Nat.mod_eq_of_lt (by unfold codeMax at h; omega)

/-- The index TICK uses is below the length (R102). -/
theorem boundCheck_lt {len c : Nat} (h : 1 ≤ len) : boundCheck len c < len := by
  unfold boundCheck; split <;> omega

/-- A cursor inside the table is used as it is (R102). -/
theorem boundCheck_of_lt {len c : Nat} (h : c < len) : boundCheck len c = c := by
  unfold boundCheck; split <;> omega

/-- A cursor at or past the end is reset to 0 (R102). -/
theorem boundCheck_of_le {len c : Nat} (h : len ≤ c) : boundCheck len c = 0 := by
  unfold boundCheck; split <;> omega

/-- The cursor always moves (R109). -/
theorem FreqIndex.toNat_range (n : FreqIndex) : 1 ≤ n.toNat ∧ n.toNat ≤ 5 := by
  cases n <;> exact ⟨by decide, by decide⟩

end Sys2Proof.Machine
end

