-- ==== Sys2Proof/Laws/Ops.lean ====
section
/-! SUPPORT. One law per shared operation: everything it can do, for later proofs to cite instead of unfolding it. -/

namespace Sys2Proof.Machine

open Sys2Proof

/-! ## Outcomes -/

/-- An operation that completes, under a well-formed configuration, ends in its state. -/
@[simp] theorem perform_ok {s t : State} (h : s.cfg.wf = true) : perform s (.ok t) = .next t := by simp [perform, h]

/-- Under an ill-formed configuration every operation is refused (R7, U12). -/
theorem perform_of_not_wf {s : State} {r : Except Fault State} (h : s.cfg.wf = false) :
    perform s r = .refused .configIllFormed := by simp [perform, h]

/-- If an operation answers a next state, the configuration is well-formed and that is the operation's own state. -/
theorem perform_next {s t : State} {r : Except Fault State} (h : perform s r = .next t) : s.cfg.wf = true ∧ r = .ok t := by
  unfold perform at h
  split at h
  · split at h <;> simp_all
  · cases h

@[simp] theorem whenPhase_of_eq {p : Phase} {s : State} {r : Except Fault State} (h : s.phase = p) : whenPhase p s r = r := by
  simp [whenPhase, h]

@[simp] theorem whenPhase_of_ne {p : Phase} {s : State} {r : Except Fault State} (h : s.phase ≠ p) :
    whenPhase p s r = .ok s := by simp [whenPhase, h]

/-! ## The LUT -/

/-- A mapped read answers the table's entry. -/
theorem lutRead_of_lt {s : State} {sh : Shape} {i : Nat} (h : i < s.cfg.depth sh) :
    lutRead s sh i = .ok ((s.table sh).read i) := by simp [lutRead, h]

/-- A mapped write replaces the table by the table with that entry written. -/
theorem lutWrite_of_lt {s : State} {sh : Shape} {i : Nat} {v : Code} (h : i < s.cfg.depth sh) :
    lutWrite s sh i v = .ok (s.setTable sh ((s.table sh).write i v)) := by simp [lutWrite, h]

/-- The read through a flat address of `2 + W_C` bits is that of the entry it names. -/
theorem memRead_of_fits {s : State} {addr : Nat} (h : addr < 2 ^ (2 + s.cfg.cursorWidth)) :
    memRead s addr = lutRead s (addrSel s.cfg addr) (addrIdx s.cfg addr) := by simp [memRead, addrFits, h]

/-- The write through a flat address of `2 + W_C` bits is that of the entry it names. -/
theorem memWrite_of_fits {s : State} {addr : Nat} {v : Code} (h : addr < 2 ^ (2 + s.cfg.cursorWidth)) :
    memWrite s addr v = lutWrite s (addrSel s.cfg addr) (addrIdx s.cfg addr) v := by simp [memWrite, addrFits, h]

/-- A mapped entry as a number. -/
theorem entry_of_lt {s : State} {sh : Shape} {i : Nat} (h : i < s.cfg.depth sh) :
    s.entry sh i = some ((s.table sh).read i).toNat := by simp [State.entry, lutRead_of_lt h]

/-- Reads depend on the table and the depth only. -/
theorem lutRead_congr {s t : State} {sh : Shape} {i : Nat} (hc : t.cfg = s.cfg)
    (hr : (t.table sh).read i = (s.table sh).read i) : lutRead t sh i = lutRead s sh i := by
  simp [lutRead, hc, hr]

/-! ## Filling a run of entries -/

/-- What `lutFill` leaves of a table: entries `first .. first + count − 1` from `value`, the others as they were. -/
structure Filled (m m' : Memory) (value : Nat → Code) (first count : Nat) : Prop where
  wf : Memory.wf m' = true
  below : ∀ {n}, first + count ≤ n → Memory.below m n = true → Memory.below m' n = true
  inside : ∀ i, first ≤ i → i < first + count → Memory.read m' i = value i
  outside : ∀ i, i < first ∨ first + count ≤ i → Memory.read m' i = Memory.read m i

/-- A loop of writes within the depth completes, and changes the one table as `Filled` says. -/
theorem lutFill_spec (sh : Shape) (value : Nat → Code) (first count : Nat) (s : State)
    (hd : first + count ≤ s.cfg.depth sh) (hw : (s.table sh).wf = true) :
    ∃ m, lutFill sh value first count s = .ok (s.setTable sh m) ∧ Filled (s.table sh) m value first count := by
  induction count with
  | zero =>
    refine ⟨s.table sh, by simp [lutFill], hw, fun _ h => h, fun i h1 h2 => by omega, fun _ _ => rfl⟩
  | succ count ih =>
    obtain ⟨m, hm, f⟩ := ih (by omega)
    have hlt : first + count < (s.setTable sh m).cfg.depth sh := by simp; omega
    refine ⟨m.write (first + count) (value (first + count)), ?_, Memory.write_wf f.wf, fun hn hb => ?_, fun i h1 h2 => ?_,
      fun i h => ?_⟩
    · simp only [lutFill, hm, lutWrite_of_lt hlt, State.setTable_table_same, State.setTable_setTable]
    · exact Memory.write_below (f.below (by omega) hb) (by omega)
    · rw [Memory.read_write _ _ _ f.wf]
      split
      · subst i; rfl
      · exact f.inside i h1 (by omega)
    · rw [Memory.read_write_other _ (by omega)]
      exact f.outside i (by omega)

/-! ## The builds -/

/-- BUILDSINE completes and fills the Sine table (R161). -/
theorem buildSine_spec {s : State} (hw : (s.table .sine).wf = true) :
    ∃ m, buildSine s = .ok (s.setTable .sine m) ∧
      Filled (s.table .sine) m (fun i => codeOf (sineEntry s.cfg i)) 0 s.cfg.lenSine :=
  lutFill_spec .sine _ 0 _ s (by simp [Cfg.depth]) hw

/-- BUILDSQUARE completes for every threshold and fills the Square table (R162, R165). -/
theorem buildSquare_spec {s : State} (t : Nat) (hw : (s.table .square).wf = true) :
    ∃ m, buildSquare t s = .ok (s.setTable .square m) ∧
      Filled (s.table .square) m (fun i => codeOf (squareEntry s.cfg t i)) 0 s.cfg.lenSquare :=
  lutFill_spec .square _ 0 _ s (by simp [Cfg.depth]) hw

/-- BUILDSAW completes and fills the Sawtooth table (R163). -/
theorem buildSaw_spec {s : State} (hw : (s.table .sawtooth).wf = true) :
    ∃ m, buildSaw s = .ok (s.setTable .sawtooth m) ∧
      Filled (s.table .sawtooth) m (fun i => codeOf (sawEntry s.cfg i)) 0 s.cfg.lenSaw :=
  lutFill_spec .sawtooth _ 0 _ s (by simp [Cfg.depth]) hw

/-- What BUILDTRI leaves of the Triangle table: the two segments, the gap as it was (R164). -/
structure TriBuilt (c : Cfg) (m m' : Memory) : Prop where
  wf : Memory.wf m' = true
  below : Memory.below m c.depthTri = true → Memory.below m' c.depthTri = true
  up : ∀ i ≤ c.triBp1, Memory.read m' i = codeOf (triUpEntry c i)
  down : ∀ i, c.triBp2 ≤ i → i < c.depthTri → Memory.read m' i = codeOf (triDownEntry c i)
  kept : ∀ i, c.triBp1 < i ∧ i < c.triBp2 ∨ c.depthTri ≤ i → Memory.read m' i = Memory.read m i

/-- BUILDTRI completes under a well-formed configuration (R164, R7 item 8). -/
theorem buildTri_spec {s : State} (hc : s.cfg.Wf) (hw : (s.table .triangle).wf = true) :
    ∃ m, buildTri s = .ok (s.setTable .triangle m) ∧ TriBuilt s.cfg (s.table .triangle) m := by
  have h1 := hc.bpOrder
  have h2 := hc.bpDepth
  obtain ⟨m1, e1, f1⟩ := lutFill_spec .triangle (fun i => codeOf (triUpEntry s.cfg i)) 0 (s.cfg.triBp1 + 1) s
    (by simp [Cfg.depth]; omega) hw
  obtain ⟨m2, e2, f2⟩ := lutFill_spec .triangle (fun i => codeOf (triDownEntry s.cfg i)) s.cfg.triBp2
    (s.cfg.depthTri - s.cfg.triBp2) (s.setTable .triangle m1) (by simp [Cfg.depth]; omega) (by simpa using f1.wf)
  rw [State.setTable_table_same] at f2
  refine ⟨m2, by simp [buildTri, e1, e2], f2.wf, fun hb => f2.below (by omega) (f1.below (by omega) hb), fun i hi => ?_,
    fun i ha hb => ?_, fun i hi => ?_⟩
  · rw [f2.outside i (by omega), f1.inside i (by omega) (by omega)]
  · exact f2.inside i ha (by omega)
  · rw [f2.outside i (by omega), f1.outside i (by omega)]

/-! ## The sink and the dispatcher -/

/-- The trace element a tick adds, for a code and the sink's readiness (R181). -/
theorem trySend_eq (s : State) (v : Code) (rdy : Bool) :
    trySend s v rdy = (s.emit (if rdy then .sent (frameOf s.cfg v) else .dropped), rdy) := by
  cases rdy <;> rfl

/-- The frame, read as a number: the prefix above the code (R79). -/
theorem frameOf_toNat {c : Cfg} (h : c.sinkPrefix < 16) (v : Code) :
    (frameOf c v).toNat = c.sinkPrefix * 4096 + v.toNat := by
  have hv : v.toNat < 2 ^ 12 := v.isLt
  have hp : c.sinkPrefix % 2 ^ 16 = c.sinkPrefix := Nat.mod_eq_of_lt (by omega)
  have hs : c.sinkPrefix <<< 12 % 2 ^ 16 = c.sinkPrefix <<< 12 := Nat.mod_eq_of_lt (by simp only [Nat.shiftLeft_eq]; omega)
  simp only [frameOf, BitVec.toNat_or, BitVec.toNat_shiftLeft, BitVec.toNat_ofNat, BitVec.toNat_setWidth, hp, hs,
    Nat.mod_eq_of_lt (show v.toNat < 2 ^ 16 by omega)]
  rw [← Nat.shiftLeft_add_eq_or_of_lt hv, Nat.shiftLeft_eq]

/-- TICK when it is enabled: the whole operation as one write of the state (R101 to R106). -/
theorem tickOperation_of_enabled {s : State} (hc : s.cfg.Wf) (he : s.tickEnabled = true) (rdy : Bool) :
    tickOperation rdy s = .ok (((s.emit (sampleEvent s s.shape s.fetchIndex rdy)).setCursor
      (s.fetchIndex + if rdy || s.cfg.advanceOnDrop then s.freq.toNat else 0)).setTickPend false) := by
  have hlt : s.fetchIndex < s.cfg.depth s.shape :=
    Nat.lt_of_lt_of_le (boundCheck_lt (hc.lenPos _)) (hc.len_le_depth _)
  simp only [tickOperation, he, if_true]
  rw [show boundCheck (s.cfg.len s.shape) s.cursor = s.fetchIndex from rfl, lutRead_of_lt hlt]
  simp only [trySend_eq, sampleEvent, advance, clearPending, State.emit_cfg]
  cases rdy <;> cases s.cfg.advanceOnDrop <;> rfl

/-- TICK when it is not enabled changes nothing (R100). -/
theorem tickOperation_of_disabled {s : State} (he : s.tickEnabled = false) (rdy : Bool) : tickOperation rdy s = .ok s := by
  simp [tickOperation, he]

theorem tickEnabled_iff {s : State} : s.tickEnabled = true ↔ s.phase = .run ∧ s.tickPend = true := by
  simp [State.tickEnabled]

/-! ## INIT -/

/-- INIT's builds complete and lead to RUN: each table is filled and nothing else but PHASE changes (R170). -/
theorem initBuilds_spec {s : State} (hc : s.cfg.Wf) (hw : ∀ sh, (s.table sh).wf = true) :
    ∃ m1 m2 m3 m4, initBuilds s = .ok (((((s.setTable .sine m1).setTable .square m2).setTable .sawtooth m3).setTable
        .triangle m4).setPhase .run) ∧
      Filled s.sine m1 (fun i => codeOf (sineEntry s.cfg i)) 0 s.cfg.lenSine ∧
      Filled s.square m2 (fun i => codeOf (squareEntry s.cfg s.duty i)) 0 s.cfg.lenSquare ∧
      Filled s.saw m3 (fun i => codeOf (sawEntry s.cfg i)) 0 s.cfg.lenSaw ∧
      TriBuilt s.cfg s.tri m4 := by
  obtain ⟨m1, e1, f1⟩ := buildSine_spec (s := s) (hw _)
  obtain ⟨m2, e2, f2⟩ := buildSquare_spec (s := s.setTable .sine m1) s.duty (hw .square)
  obtain ⟨m3, e3, f3⟩ := buildSaw_spec (s := (s.setTable .sine m1).setTable .square m2) (hw .sawtooth)
  obtain ⟨m4, e4, f4⟩ := buildTri_spec (s := ((s.setTable .sine m1).setTable .square m2).setTable .sawtooth m3) hc
    (hw .triangle)
  refine ⟨m1, m2, m3, m4, ?_, f1, f2, f3, f4⟩
  simp only [initBuilds, e1, State.setTable_duty, e2, e3, e4]

/-! ## What an operation that completes leaves alone, said without the canonical form -/

/-- A loop of writes within the depth completes and writes one table only. -/
theorem lutFill_total (sh : Shape) (value : Nat → Code) (first count : Nat) (s : State)
    (hd : first + count ≤ s.cfg.depth sh) : ∃ m, lutFill sh value first count s = .ok (s.setTable sh m) := by
  induction count with
  | zero => exact ⟨s.table sh, by simp [lutFill]⟩
  | succ count ih =>
    obtain ⟨m, hm⟩ := ih (by omega)
    have hlt : first + count < (s.setTable sh m).cfg.depth sh := by simp; omega
    exact ⟨_, by simp only [lutFill, hm, lutWrite_of_lt hlt, State.setTable_table_same, State.setTable_setTable]; rfl⟩

/-- BUILDSQUARE completes in every state, and writes the Square table only (R165). -/
theorem buildSquare_total (t : Nat) (s : State) : ∃ m, buildSquare t s = .ok { s with square := m } :=
  lutFill_total .square _ 0 _ s (by simp [Cfg.depth])

/-- BUILDSINE completes in every state, and writes the Sine table only (R165). -/
theorem buildSine_total (s : State) : ∃ m, buildSine s = .ok { s with sine := m } :=
  lutFill_total .sine _ 0 _ s (by simp [Cfg.depth])

/-- BUILDSAW completes in every state, and writes the Sawtooth table only (R165). -/
theorem buildSaw_total (s : State) : ∃ m, buildSaw s = .ok { s with saw := m } :=
  lutFill_total .sawtooth _ 0 _ s (by simp [Cfg.depth])

/-- BUILDTRI completes under a well-formed configuration, and writes the Triangle table only (R165). -/
theorem buildTri_total {s : State} (hc : s.cfg.Wf) : ∃ m, buildTri s = .ok { s with tri := m } := by
  have h1 := hc.bpOrder
  have h2 := hc.bpDepth
  obtain ⟨m1, e1⟩ := lutFill_total .triangle (fun i => codeOf (triUpEntry s.cfg i)) 0 (s.cfg.triBp1 + 1) s
    (by simp [Cfg.depth]; omega)
  obtain ⟨m2, e2⟩ := lutFill_total .triangle (fun i => codeOf (triDownEntry s.cfg i)) s.cfg.triBp2
    (s.cfg.depthTri - s.cfg.triBp2) (s.setTable .triangle m1) (by simp [Cfg.depth]; omega)
  exact ⟨m2, by simp only [buildTri, e1, e2]; rfl⟩

end Sys2Proof.Machine
end

