-- ==== Sys2Proof/Laws/PerInstr.lean ====
section
/-! SUPPORT. Laws of the operations as syntax, one lemma per constructor: an operation stands on the block's inputs on its own
exactly where it has an encoding (R71, R81). -/

namespace Sys2Proof.Laws.Presentable

open Sys2Proof

/-- The check and the encoder agree on which operations can be presented. -/
def Statement (i : Instr) : Prop := i.wf = (encode i).isSome

theorem setshape (s : Shape) : Statement (.setshape s) := rfl
theorem setfreq (n : BitVec 3) : Statement (.setfreq n) := rfl
theorem adjduty (d : Direction) : Statement (.adjduty d) := rfl
theorem rstduty : Statement (.rstduty) := rfl
theorem rstall : Statement (.rstall) := rfl
theorem key0 : Statement (.key0) := rfl
theorem key1 : Statement (.key1) := rfl
theorem key2 : Statement (.key2) := rfl
theorem key3 : Statement (.key3) := rfl
theorem key4 : Statement (.key4) := rfl
theorem key5 : Statement (.key5) := rfl
theorem key6 : Statement (.key6) := rfl
theorem key7 : Statement (.key7) := rfl
theorem key8 : Statement (.key8) := rfl
theorem key9 : Statement (.key9) := rfl
theorem keystar : Statement (.keystar) := rfl
theorem keyhash : Statement (.keyhash) := rfl
theorem reset : Statement (.reset) := rfl
theorem init (initOk : Bool) : Statement (.init initOk) := rfl
theorem timerFire : Statement (.timerFire) := rfl
theorem tick (rdy : Bool) : Statement (.tick rdy) := rfl
theorem trysend (v : Code) (rdy : Bool) : Statement (.trysend v rdy) := rfl
theorem buildsine : Statement (.buildsine) := rfl
theorem buildsquare (t : Nat) : Statement (.buildsquare t) := rfl
theorem buildsaw : Statement (.buildsaw) := rfl
theorem buildtri : Statement (.buildtri) := rfl

end Sys2Proof.Laws.Presentable
end

