-- ==== Sys2Proof/Laws/Step.lean ====
section
/-! SUPPORT. What each operation can do when it completes, and the one inversion of a step, for invariants to be derived from. -/

namespace Sys2Proof.Machine

open Sys2Proof

/-! ## Commands -/

/-- What a command may leave: SHAPE, FREQ, DUTY and the Square table written, nothing else (R130). -/
def CommandResult (s t : State) : Prop :=
  t = { s with shape := t.shape, freq := t.freq, duty := t.duty, square := t.square }

theorem setShapeCommand_result (sh : Shape) (s : State) :
    ∃ t, setShapeCommand sh s = .ok t ∧ CommandResult s t ∧ t.duty = s.duty ∧ t.square = s.square := by
  unfold setShapeCommand whenPhase
  split
  · exact ⟨_, rfl, rfl, rfl, rfl⟩
  · exact ⟨s, rfl, rfl, rfl, rfl⟩

theorem setFreqCommand_result (n : BitVec 3) (s : State) :
    ∃ t, setFreqCommand n s = .ok t ∧ CommandResult s t ∧ t.duty = s.duty ∧ t.square = s.square := by
  unfold setFreqCommand whenPhase
  split
  · cases FreqIndex.ofOperand n
    · exact ⟨s, rfl, rfl, rfl, rfl⟩
    · exact ⟨_, rfl, rfl, rfl, rfl⟩
  · exact ⟨s, rfl, rfl, rfl, rfl⟩

/-- `DUTY <- d; BUILDSQUARE(DUTY)` completes and writes those two only. -/
theorem setDutyAndRebuild_result (d : Nat) (s : State) :
    ∃ m, setDutyAndRebuild d s = .ok { s with duty := d, square := m } := buildSquare_total d (s.setDuty d)

/-- ADJDUTY leaves the state, or takes one step in Square within the bounds (R133). -/
theorem adjDutyCommand_cases (d : Direction) (s : State) :
    adjDutyCommand d s = .ok s ∨
    s.phase = .run ∧ s.shape = .square ∧
      (s.duty + s.cfg.dutyStep ≤ s.cfg.dutyMax ∧ adjDutyCommand d s = setDutyAndRebuild (s.duty + s.cfg.dutyStep) s ∨
       s.cfg.dutyMin + s.cfg.dutyStep ≤ s.duty ∧ adjDutyCommand d s = setDutyAndRebuild (s.duty - s.cfg.dutyStep) s) := by
  by_cases hp : s.phase = .run
  · by_cases hs : s.shape = .square
    · simp only [adjDutyCommand, whenPhase_of_eq hp, if_pos hs]
      cases d
      · by_cases h : s.cfg.dutyMin + s.cfg.dutyStep ≤ s.duty
        · exact .inr ⟨hp, hs, .inr ⟨h, by simp [h]⟩⟩
        · exact .inl (by simp [h])
      · by_cases h : s.duty + s.cfg.dutyStep ≤ s.cfg.dutyMax
        · exact .inr ⟨hp, hs, .inl ⟨h, by simp [h]⟩⟩
        · exact .inl (by simp [h])
    · exact .inl (by simp [adjDutyCommand, hp, hs])
  · exact .inl (by simp [adjDutyCommand, hp])

theorem adjDutyCommand_result (d : Direction) (s : State) :
    ∃ t, adjDutyCommand d s = .ok t ∧ CommandResult s t ∧ (s.shape ≠ .square → t = s) := by
  rcases adjDutyCommand_cases d s with h | ⟨-, hs, ⟨-, h⟩ | ⟨-, h⟩⟩
  · exact ⟨s, h, rfl, fun _ => rfl⟩
  · obtain ⟨m, hm⟩ := setDutyAndRebuild_result (s.duty + s.cfg.dutyStep) s
    exact ⟨_, h.trans hm, rfl, fun hn => absurd hs hn⟩
  · obtain ⟨m, hm⟩ := setDutyAndRebuild_result (s.duty - s.cfg.dutyStep) s
    exact ⟨_, h.trans hm, rfl, fun hn => absurd hs hn⟩

theorem rstDutyCommand_result (s : State) :
    ∃ t, rstDutyCommand s = .ok t ∧ CommandResult s t ∧ (s.shape ≠ .square → t = s) := by
  unfold rstDutyCommand whenPhase
  split
  · split
    · obtain ⟨m, hm⟩ := setDutyAndRebuild_result s.cfg.duty50 s
      exact ⟨_, hm, rfl, fun hn => absurd ‹_› hn⟩
    · exact ⟨s, rfl, rfl, fun _ => rfl⟩
  · exact ⟨s, rfl, rfl, fun _ => rfl⟩

theorem rstAllCommand_result (s : State) : ∃ t, rstAllCommand s = .ok t ∧ CommandResult s t := by
  unfold rstAllCommand whenPhase
  split
  · obtain ⟨m, hm⟩ := setDutyAndRebuild_result s.cfg.duty50 ((s.setFreq .one).setShape .square)
    exact ⟨_, hm, rfl⟩
  · exact ⟨s, rfl, rfl⟩

/-- A command completes under a well-formed configuration and writes only what commands write (R130). -/
theorem exec_command_result {i : Instr} (hi : IsCommand i) {s : State} (hw : s.cfg.wf = true) :
    ∃ t, exec i s = .next t ∧ CommandResult s t := by
  have key : ∀ {r : Except Fault State}, (∃ t, r = .ok t ∧ CommandResult s t) → ∃ t, perform s r = .next t ∧ CommandResult s t :=
    fun ⟨t, h, hr⟩ => ⟨t, by rw [h, perform_ok hw], hr⟩
  have shp : ∀ sh, ∃ t, setShapeCommand sh s = .ok t ∧ CommandResult s t := fun sh =>
    let ⟨t, h, hr, _⟩ := setShapeCommand_result sh s; ⟨t, h, hr⟩
  have frq : ∀ n, ∃ t, setFreqCommand n s = .ok t ∧ CommandResult s t := fun n =>
    let ⟨t, h, hr, _⟩ := setFreqCommand_result n s; ⟨t, h, hr⟩
  have adj : ∀ d, ∃ t, adjDutyCommand d s = .ok t ∧ CommandResult s t := fun d =>
    let ⟨t, h, hr, _⟩ := adjDutyCommand_result d s; ⟨t, h, hr⟩
  have rst : ∃ t, rstDutyCommand s = .ok t ∧ CommandResult s t := let ⟨t, h, hr, _⟩ := rstDutyCommand_result s; ⟨t, h, hr⟩
  have all : ∃ t, rstAllCommand s = .ok t ∧ CommandResult s t := rstAllCommand_result s
  cases i with
  | setshape sh => exact key (shp sh)
  | setfreq n => exact key (frq n)
  | adjduty d => exact key (adj d)
  | rstduty | key0 => exact key rst
  | rstall | key9 => exact key all
  | key1 | key2 | key3 | key4 | key5 => exact key (frq _)
  | key6 | key7 | key8 => exact key (shp _)
  | keystar | keyhash => exact key (adj _)
  | reset | init _ | timerFire | tick _ | trysend _ _ | buildsine | buildsquare _ | buildsaw | buildtri =>
    obtain ⟨c, hc⟩ := hi
    simp [encode] at hc

/-! ## Events -/

/-- INIT changes nothing outside UNINIT; in UNINIT it halts, or builds and runs (R170). -/
theorem initOperation_result {s : State} (hc : s.cfg.Wf) (ok : Bool) :
    ∃ t, initOperation ok s = .ok t ∧
      t = { s with phase := t.phase, sine := t.sine, square := t.square, tri := t.tri, saw := t.saw } ∧
      (s.phase ≠ .uninit → t = s) := by
  by_cases hp : s.phase = .uninit
  · cases ok
    · exact ⟨raiseHalt s, by simp [initOperation, hp], rfl, fun h => absurd hp h⟩
    · obtain ⟨m1, e1⟩ := buildSine_total s
      obtain ⟨m2, e2⟩ := buildSquare_total s.duty { s with sine := m1 }
      obtain ⟨m3, e3⟩ := buildSaw_total { s with sine := m1, square := m2 }
      obtain ⟨m4, e4⟩ := buildTri_total (s := { s with sine := m1, square := m2, saw := m3 }) hc
      refine ⟨{ s with phase := .run, sine := m1, square := m2, saw := m3, tri := m4 }, ?_, rfl, fun h => absurd hp h⟩
      simp only [initOperation, whenPhase_of_eq hp, if_true, initBuilds, e1, e2, e3, e4]
      rfl
  · exact ⟨s, by simp [initOperation, hp], rfl, fun _ => rfl⟩

/-- TICK changes nothing, or is enabled and does its six steps (R100, R107). -/
theorem tickOperation_cases {s : State} (hc : s.cfg.Wf) (rdy : Bool) :
    s.tickEnabled = false ∧ tickOperation rdy s = .ok s ∨
    s.phase = .run ∧ s.tickPend = true ∧
      tickOperation rdy s = .ok { s with
        cursor := s.fetchIndex + if rdy || s.cfg.advanceOnDrop then s.freq.toNat else 0
        tickPend := false
        trace := s.trace ++ [sampleEvent s s.shape s.fetchIndex rdy] } := by
  cases he : s.tickEnabled
  · exact .inl ⟨rfl, tickOperation_of_disabled he rdy⟩
  · obtain ⟨hp, ht⟩ := tickEnabled_iff.mp he
    exact .inr ⟨hp, ht, tickOperation_of_enabled hc he rdy⟩

/-! ## A step -/

/-- A command code decodes to a command or to nothing. -/
theorem isCommand_of_decodeCmd {c : CmdCode} {i : Instr} (h : decodeCmd c = .instr i) : IsCommand i := by
  have key : ∀ c : CmdCode, (match decodeCmd c with
      | .instr i => encode i
      | .reserved _ => some (.cmd c)) = some (.cmd c) := by decide
  have := key c
  rw [h] at this
  exact ⟨c, this⟩

/-- A reserved code is reported as itself (R78). -/
theorem reserved_eq {c d : CmdCode} (h : decodeCmd c = .reserved d) : d = c := by
  unfold decodeCmd at h
  split at h
  · cases h
  · cases h; rfl

/-- Under an ill-formed configuration every operation is refused (R7, U12). -/
theorem exec_of_not_wf (i : Instr) {s : State} (h : s.cfg.wf = false) : exec i s = .refused .configIllFormed := by
  have key : ∀ r, perform s r = .refused .configIllFormed := fun r => perform_of_not_wf h
  cases i with
  | reset => exact key (.ok _)
  | trysend v rdy => exact key (.ok _)
  | _ => exact key _

/-- With nothing scheduled nothing changes (log 2). -/
theorem step_of_empty {s : State} (hw : s.cfg.wf = true) (h : s.schedule = []) : step s = .next s := by
  simp [step, takeTurn, h, hw]

/-- The head of the schedule is performed. -/
theorem step_of_cons {s : State} {e : Event} {rest : List Event} (h : s.schedule = e :: rest) :
    step s = runDecoded (decodeEvent e) (s.setSchedule rest) := by simp [step, takeTurn, h]

/-- Everything a step that completes can have done, one case per agent's event. -/
theorem step_cases {s t : State} (h : step s = .next t) :
    s.cfg.wf = true ∧
    (s.schedule = [] ∧ t = s ∨
     ∃ e rest, s.schedule = e :: rest ∧
      ((e = .rst ∧ t = { State.resetOf s.cfg with schedule := rest }) ∨
       (∃ ok, e = .initGo ok ∧ initOperation ok (s.setSchedule rest) = .ok t) ∨
       (e = .timerEvt ∧ t = if s.phase = .run then { s with schedule := rest, tickPend := true } else s.setSchedule rest) ∨
       (∃ rdy, e = .serviceTick rdy ∧ tickOperation rdy (s.setSchedule rest) = .ok t) ∨
       ∃ c, e = .cmd c ∧ (decodeCmd c = .reserved c ∧ t = s.setSchedule rest ∨
         ∃ i, decodeCmd c = .instr i ∧ IsCommand i ∧ exec i (s.setSchedule rest) = .next t))) := by
  cases hs : s.schedule with
  | nil =>
    simp only [step, takeTurn, hs] at h
    obtain ⟨hw, ht⟩ := perform_next h
    exact ⟨hw, .inl ⟨rfl, by cases ht; rfl⟩⟩
  | cons e rest =>
    rw [step_of_cons hs] at h
    cases e with
    | rst =>
      have h : perform (s.setSchedule rest) (.ok (resetState (s.setSchedule rest))) = .next t := h
      obtain ⟨hw, ht⟩ := perform_next h
      exact ⟨hw, .inr ⟨_, _, rfl, .inl ⟨rfl, by cases ht; rfl⟩⟩⟩
    | initGo ok =>
      obtain ⟨hw, ht⟩ := perform_next h
      exact ⟨hw, .inr ⟨_, _, rfl, .inr (.inl ⟨ok, rfl, ht⟩)⟩⟩
    | timerEvt =>
      obtain ⟨hw, ht⟩ := perform_next h
      refine ⟨hw, .inr ⟨_, _, rfl, .inr (.inr (.inl ⟨rfl, ?_⟩))⟩⟩
      by_cases hp : s.phase = .run
      · rw [whenPhase_of_eq (by simpa using hp)] at ht
        rw [if_pos hp]; cases ht; rfl
      · rw [whenPhase_of_ne (by simpa using hp)] at ht
        rw [if_neg hp]; cases ht; rfl
    | serviceTick rdy =>
      obtain ⟨hw, ht⟩ := perform_next h
      exact ⟨hw, .inr ⟨_, _, rfl, .inr (.inr (.inr (.inl ⟨rdy, rfl, ht⟩)))⟩⟩
    | cmd c =>
      have hd : decodeEvent (.cmd c) = decodeCmd c := rfl
      rw [hd] at h
      cases hdc : decodeCmd c with
      | instr i =>
        rw [hdc] at h
        have hi := isCommand_of_decodeCmd hdc
        have hw : s.cfg.wf = true := by
          by_contra hn
          have hn : (s.setSchedule rest).cfg.wf = false := by simpa using hn
          rw [runDecoded, exec_of_not_wf i hn] at h
          cases h
        exact ⟨hw, .inr ⟨_, _, rfl, .inr (.inr (.inr (.inr ⟨c, rfl, .inr ⟨i, hdc, hi, h⟩⟩)))⟩⟩
      | reserved d =>
        rw [hdc] at h
        have h : perform (s.setSchedule rest) (.ok (s.setSchedule rest)) = .next t := h
        obtain ⟨hw, ht⟩ := perform_next h
        have hcd := reserved_eq hdc
        subst hcd
        exact ⟨hw, .inr ⟨_, _, rfl, .inr (.inr (.inr (.inr ⟨_, rfl, .inl ⟨hdc, by cases ht; rfl⟩⟩)))⟩⟩

/-! ## Runs -/

/-- A run of `j + k` steps is a run of `j` and then one of `k`. -/
theorem steps_add {j k : Nat} {s t u : State} (h : steps j s = .next t) (h' : steps k t = .next u) :
    steps (j + k) s = .next u := by
  induction j generalizing s with
  | zero => cases h; simpa using h'
  | succ j ih =>
    rw [Nat.succ_add]
    simp only [steps] at h ⊢
    cases hs : step s with
    | next v => rw [hs] at h; exact ih h
    | fault f => rw [hs] at h; cases h
    | refused r => rw [hs] at h; cases h

/-- What holds at the start and is kept by every step holds after any number of steps. -/
theorem steps_keep {P : State → Prop} (hP : ∀ s t, P s → step s = .next t → P t) {k : Nat} {s t : State} (h0 : P s)
    (h : steps k s = .next t) : P t := by
  induction k generalizing s with
  | zero => cases h; exact h0
  | succ k ih =>
    simp only [steps] at h
    cases hs : step s with
    | next v => rw [hs] at h; exact ih (hP s v h0 hs) h
    | fault f => rw [hs] at h; cases h
    | refused r => rw [hs] at h; cases h

end Sys2Proof.Machine
end

