-- ==== Sys2Proof/Tests/Slice0.lean ====
section
/-! SUPPORT. Tests: each check of R7 with a configuration it refuses; codes written out from the spec's tables; one step for each
operation, with results worked out in 95_test_vectors.md under CFG_T; and a witness for the hypotheses of each statement. -/

namespace Sys2Proof.Tests

open Sys2Proof Sys2Proof.Machine

/-! ## Helpers -/

/-- The state an outcome ends in. -/
def after : Host.Outcome State Fault Refusal → State
  | .next s => s
  | .fault _ => State.reset
  | .refused _ => State.reset

/-- An outcome is a next state with a property. -/
def ends (o : Host.Outcome State Fault Refusal) (p : State → Bool) : Bool :=
  match o with
  | .next s => p s
  | .fault _ => false
  | .refused _ => false

theorem exists_next {o : Host.Outcome State Fault Refusal} (h : ends o (fun _ => true) = true) : ∃ t, o = .next t := by
  cases o with
  | next t => exact ⟨t, rfl⟩
  | fault _ => cases h
  | refused _ => cases h

/-- An outcome is the refusal of an ill-formed configuration. -/
def refusesCfg : Host.Outcome State Fault Refusal → Bool
  | .refused .configIllFormed => true
  | _ => false

/-- CFG_T after `RESET; INIT ok` (V-B8). -/
def running : State := after (exec (.init true) State.reset)

/-- CFG_T running with SQ(d) in the Square table. -/
def based (d : Nat) : State := after (exec (.buildsquare d) running)

/-- `s` with other registers. -/
def withRegs (s : State) (sh : Shape) (n : FreqIndex) (d c : Nat) (pend : Bool) : State :=
  { s with shape := sh, freq := n, duty := d, cursor := c, tickPend := pend }

/-- A running state `(RUN, sh, n, d, c, pend)` with SQ(d), as 95_test_vectors.md writes it. -/
def at_ (sh : Shape) (n : FreqIndex) (d c : Nat) (pend : Bool) : State := withRegs (based d) sh n d c pend

/-- CFG_T halted. -/
def halted : State := after (exec (.init false) State.reset)

/-- The registers `(SHAPE, FREQ, DUTY, CURSOR)` and `SQ(h)` at its edge, as 95_test_vectors.md lists them. -/
def shows (sh : Shape) (n : FreqIndex) (d c h : Nat) (t : State) : Bool :=
  decide (t.shape = sh) && decide (t.freq = n) && decide (t.duty = d) && decide (t.cursor = c)
    && decide (t.entry .square (h - 1) = some 3000) && decide (t.entry .square h = some 500)

/-- What a TICK leaves: the one trace element, CURSOR, and TICK_PEND clear. -/
def ticked (e : TraceEvent) (c : Nat) (t : State) : Bool :=
  decide (t.trace = [e]) && decide (t.cursor = c) && !t.tickPend

/-! ## The checks of R7, one ill-formed configuration each -/

theorem test_cfg_t_wf : Cfg.illustrative.wf = true := by decide

theorem test_wf_item1 : ({ Cfg.illustrative with lenTri := 9 } : Cfg).lengthsOk = false := by decide
theorem test_wf_item2 : ({ Cfg.illustrative with cursorWidth := 4 } : Cfg).cursorWidthOk = false := by decide
theorem test_wf_item3 : ({ Cfg.illustrative with dutyMax := 21 } : Cfg).dutyRangeOk = false := by decide
theorem test_wf_item4 : ({ Cfg.illustrative with dutyMax := 17 } : Cfg).dutyAlignedOk = false := by decide
theorem test_wf_item5 : ({ Cfg.illustrative with sqHigh := 4096 } : Cfg).squareLevelsOk = false := by decide
theorem test_wf_item6 : ({ Cfg.illustrative with sineRom := [2000, 3000] } : Cfg).sineRomOk = false := by decide
theorem test_wf_item7 : ({ Cfg.illustrative with sawSlope := 820 } : Cfg).sawOk = false := by decide
theorem test_wf_item8 : ({ Cfg.illustrative with triDnBase := 1999 } : Cfg).triangleOk = false := by decide
theorem test_wf_item9 : ({ Cfg.illustrative with sinkPrefix := 16 } : Cfg).sinkPrefixOk = false := by decide

/-- A configuration with one defect is refused by the step (U12). -/
theorem test_ill_formed_cfg_refused :
    refusesCfg (step { State.reset with cfg := { Cfg.illustrative with cursorWidth := 4 } }) = true := by decide

/-- TRYSEND and the builds do not stand on the inputs on their own (R81). -/
theorem test_micro_operations_not_presentable :
    ([.trysend 0 true, .buildsine, .buildsquare 3, .buildsaw, .buildtri] : List Instr).all (fun i => !i.wf) = true := by decide

/-! ## Decoding: codes written out bit by bit from R73 and R74 -/

theorem test_decode_setshape : ([0b10000000, 0b10000001, 0b10000010, 0b10000011] : List CmdCode).map decodeCmd
    = [.instr (.setshape .sine), .instr (.setshape .square), .instr (.setshape .triangle), .instr (.setshape .sawtooth)] := by
  decide
theorem test_decode_setfreq : ([0b10010000, 0b10010101, 0b10010110] : List CmdCode).map decodeCmd
    = [.instr (.setfreq 0), .instr (.setfreq 5), .instr (.setfreq 6)] := by decide
theorem test_decode_adjduty : ([0b10100000, 0b10100001] : List CmdCode).map decodeCmd
    = [.instr (.adjduty .minus), .instr (.adjduty .plus)] := by decide
theorem test_decode_resets : ([0b10110000, 0b11000000] : List CmdCode).map decodeCmd
    = [.instr .rstduty, .instr .rstall] := by decide
theorem test_decode_keys : ([0b00110000, 0b00110001, 0b00110010, 0b00110011, 0b00110100, 0b00110101, 0b00110110, 0b00110111,
      0b00111000, 0b00111001, 0b00101010, 0b00100011] : List CmdCode).map decodeCmd
    = [.instr .key0, .instr .key1, .instr .key2, .instr .key3, .instr .key4, .instr .key5, .instr .key6, .instr .key7,
       .instr .key8, .instr .key9, .instr .keystar, .instr .keyhash] := by decide
/-- The reserved codes of V-C13. -/
theorem test_decode_reserved : ([0x00, 0x41, 0x7F, 0x84, 0x9B, 0xA2, 0xB1, 0xC1, 0xD5, 0xFF] : List CmdCode).all
    (fun c => decide (decodeCmd c = .reserved c)) = true := by decide
/-- The event lines (R81). -/
theorem test_decode_events : ([.rst, .initGo true, .initGo false, .timerEvt, .serviceTick true] : List Event).map decodeEvent
    = [.instr .reset, .instr (.init true), .instr (.init false), .instr .timerFire, .instr (.tick true)] := by decide
/-- No two rows of the command tables match one code. -/
theorem test_rows_disjoint :
    cmdRows.Pairwise (fun r q => (r.mask &&& q.mask) &&& (r.value ^^^ q.value) ≠ 0) := by decide

/-- The match value of every table row that has a code is decoded and run as the first operation after reset. -/
theorem test_table_words_run_first :
    [0x80, 0x90, 0xA0, 0xB0, 0xC0, 0x30, 0x31, 0x32, 0x33, 0x34, 0x35, 0x36, 0x37, 0x38, 0x39, 0x2A, 0x23].all (fun w =>
      (decodeTableWord 8 w).isSome && ends (step (State.reset.withFetchWord 8 w)) (fun t => decide (t.schedule = []))) = true := by
  decide
theorem test_adjduty_runs_first : ends (step (State.reset.withFetchWord 8 0xA1)) (shows .square .one 12 0 12) = true := by decide

/-- Pseudo-operations (R83) and key lines (R74). -/
theorem test_written_form : programEvents [.t true, .incduty, .decduty, .key '#', .key '9', .cmd 0xD5]
    = [.timerEvt, .serviceTick true, .cmd 0xA1, .cmd 0xA0, .cmd 0x23, .cmd 0x39, .cmd 0xD5] := by decide

/-! ## Operands, frames and addresses -/

/-- V-K1, V-K3. -/
theorem test_frames : frameOf Cfg.illustrative 3000 = 0x3BB8 ∧ frameOf Cfg.illustrative 4095 = 0x3FFF ∧
    frameOf { Cfg.illustrative with sinkPrefix := 0xF } 500 = 0xF1F4 := by decide
/-- `W_C`, `W_D` and DEPTH_TRI of CFG_T (95_test_vectors.md section 1), two of them R6's defaults. -/
theorem test_widths : Cfg.illustrative.cursorWidth = 5 ∧ Cfg.illustrative.dutyWidth = 5 ∧ Cfg.illustrative.depthTri = 8 := by
  decide
/-- `{2, 3}` with `W_C` = 5 is 0b10_00011 (R52). -/
theorem test_flat_address : lutAddr Cfg.illustrative .triangle 3 = 0b1000011 ∧
    (match memRead running 0b1000011 with
     | .ok v => decide (v = 3000)
     | .error _ => false) = true := by decide
/-- The first number of more than `2 + W_C` = 7 bits is no address. -/
theorem test_flat_address_too_wide : memRead running 0b10000000 = .error (.lutAddrTooWide 0b10000000) := by rfl
/-- The pass lengths of V-T8. -/
theorem test_pass_ticks : passTicks 20 3 = 7 ∧ passTicks 8 5 = 2 ∧ passTicks 6 3 = 2 ∧ passTicks 20 1 = 20 := by decide

/-! ## Events -/

/-- V-B8 and 42_table_builder.md rule R170's example. -/
theorem test_init_ok : ends (exec (.init true) State.reset) (fun t =>
    decide (t.phase = .run) && shows .square .one 10 0 10 t && decide (t.entry .triangle 4 = some 0)
      && decide (t.entry .triangle 7 = some 1000) && decide (t.entry .sine 7 = some 1000)
      && decide (t.entry .sawtooth 5 = some 2500)) = true := by decide
/-- V-B9. -/
theorem test_init_fail : ends (exec (.init false) State.reset) (fun t =>
    decide (t.phase = .halt) && decide (t.entry .square 0 = some 0)) = true := by decide
/-- V-R1. -/
theorem test_reset : ends (exec .reset (at_ .sine .four 16 9 true)) (fun t => decide (t = State.reset)) = true := by decide
/-- V-E1. -/
theorem test_timer_fire : ends (exec .timerFire running) (fun t => t.tickPend && decide (t.cursor = 0)) = true := by decide
/-- V-E2. -/
theorem test_timer_fire_uninit : ends (exec .timerFire State.reset) (fun t => decide (t = State.reset)) = true := by decide
/-- V-T6: the wrap is a reset to 0, not a modulo. -/
theorem test_tick_wraps_to_zero : ends (exec (.tick true) (at_ .square .three 10 21 true)) (ticked (.sent 0x3BB8) 3) = true := by
  decide
/-- V-T3: a busy sink. -/
theorem test_tick_busy : ends (exec (.tick false) (at_ .square .one 10 4 true)) (ticked .dropped 5) = true := by decide
/-- V-T3's remark: with ADVANCE_ON_DROP off a dropped tick holds the cursor. -/
theorem test_tick_busy_held :
    ends (exec (.tick false) { at_ .square .one 10 4 true with cfg := { Cfg.illustrative with advanceOnDrop := false } })
      (ticked .dropped 4) = true := by decide
/-- V-T12: an entry of the triangle's gap is sent as code 0. -/
theorem test_tick_gap : ends (exec (.tick true) (at_ .triangle .one 10 4 true)) (ticked (.sent 0x3000) 5) = true := by decide
/-- V-T14: the last entry, and the largest stored cursor. -/
theorem test_tick_last_entry : ends (exec (.tick true) (at_ .square .five 10 19 true)) (ticked (.sent 0x31F4) 24) = true := by
  decide
/-- V-T4. -/
theorem test_tick_disabled : ends (exec (.tick true) (at_ .square .one 10 4 false)) (fun t =>
    decide (t = at_ .square .one 10 4 false)) = true := by decide

/-! ## Commands (V-C1 to V-C16) -/

theorem test_setshape : ends (exec (.setshape .sawtooth) (at_ .sine .one 10 7 false)) (shows .sawtooth .one 10 7 10) = true := by
  decide
theorem test_setfreq : ends (exec (.setfreq 3) (at_ .square .one 10 0 false)) (shows .square .three 10 0 10) = true := by decide
theorem test_setfreq_illegal : ends (exec (.setfreq 6) (at_ .square .three 10 0 false)) (shows .square .three 10 0 10) = true := by
  decide
theorem test_adjduty_plus : ends (exec (.adjduty .plus) (at_ .square .one 10 5 false)) (shows .square .one 12 5 12) = true := by
  decide
theorem test_adjduty_at_max : ends (exec (.adjduty .plus) (at_ .square .one 18 5 false)) (shows .square .one 18 5 18) = true := by
  decide
theorem test_rstduty : ends (exec .rstduty (at_ .square .two 16 3 false)) (shows .square .two 10 3 10) = true := by decide
theorem test_rstduty_off_square : ends (exec .rstduty (at_ .sine .one 14 5 false)) (shows .sine .one 14 5 14) = true := by decide
theorem test_rstall : ends (exec .rstall (at_ .sine .four 16 7 false)) (shows .square .one 10 7 10) = true := by decide
/-- V-C12: each key from `(Square, 2, 14, 5; SQ(14))`. -/
theorem test_keys_frequency : ends (exec .key1 (at_ .square .two 14 5 false)) (shows .square .one 14 5 14) = true ∧
    ends (exec .key2 (at_ .square .two 14 5 false)) (shows .square .two 14 5 14) = true ∧
    ends (exec .key3 (at_ .square .two 14 5 false)) (shows .square .three 14 5 14) = true ∧
    ends (exec .key4 (at_ .square .two 14 5 false)) (shows .square .four 14 5 14) = true ∧
    ends (exec .key5 (at_ .square .two 14 5 false)) (shows .square .five 14 5 14) = true := by decide
theorem test_keys_shape : ends (exec .key6 (at_ .square .two 14 5 false)) (shows .sine .two 14 5 14) = true ∧
    ends (exec .key7 (at_ .square .two 14 5 false)) (shows .triangle .two 14 5 14) = true ∧
    ends (exec .key8 (at_ .square .two 14 5 false)) (shows .square .two 14 5 14) = true := by decide
theorem test_keys_duty : ends (exec .key0 (at_ .square .two 14 5 false)) (shows .square .two 10 5 10) = true ∧
    ends (exec .key9 (at_ .square .two 14 5 false)) (shows .square .one 10 5 10) = true ∧
    ends (exec .keystar (at_ .square .two 14 5 false)) (shows .square .two 12 5 12) = true ∧
    ends (exec .keyhash (at_ .square .two 14 5 false)) (shows .square .two 16 5 16) = true := by decide
/-- V-C14: a command outside RUN. -/
theorem test_command_not_accepted : ends (exec .key6 halted) (fun t => decide (t = halted)) = true := by decide

/-! ## Builds and sink -/

/-- V-B4: thresholds outside the legal range are applied as given. -/
theorem test_buildsquare_zero : ends (exec (.buildsquare 0) running) (fun t => decide (t.entry .square 0 = some 500)) = true := by
  decide
theorem test_buildsquare_past_end : ends (exec (.buildsquare 25) running) (fun t =>
    decide (t.entry .square 19 = some 3000) && decide (t.entry .square 20 = none)) = true := by decide
/-- V-B1. -/
theorem test_buildsine : ends (exec .buildsine State.reset) (fun t =>
    decide (t.entry .sine 0 = some 2000) && decide (t.entry .sine 3 = some 1000)) = true := by decide
/-- V-B5. -/
theorem test_buildsaw : ends (exec .buildsaw State.reset) (fun t =>
    decide (t.entry .sawtooth 0 = some 0) && decide (t.entry .sawtooth 5 = some 2500)) = true := by decide
/-- V-B7, and its variant without a gap. -/
theorem test_buildtri : ends (exec .buildtri State.reset) (fun t =>
    decide (t.entry .triangle 3 = some 3000) && decide (t.entry .triangle 4 = some 0)
      && decide (t.entry .triangle 5 = some 3000)) = true := by decide
theorem test_buildtri_no_gap :
    ends (exec .buildtri { State.reset with cfg := { Cfg.illustrative with triBp2 := 4 } }) (fun t =>
      decide (t.entry .triangle 4 = some 3000) && decide (t.entry .triangle 7 = some 0)) = true := by decide
/-- V-K1, V-K2. -/
theorem test_trysend : ends (exec (.trysend 3000 true) running) (fun t => decide (t.trace = [.sent 0x3BB8])) = true ∧
    ends (exec (.trysend 3000 false) running) (fun t => decide (t.trace = [.dropped])) = true := by decide

/-! ## Witnesses: states that meet the hypotheses of the statements -/

/-- The registers do not matter to soundness. -/
theorem sound_of_tables {s : State} (h : s.Sound) (sh : Shape) (n : FreqIndex) (d c : Nat) (pend : Bool) :
    (withRegs s sh n d c pend).Sound :=
  ⟨h.cfgWf, fun k => by have := h.canonical k; cases k <;> exact this, fun k => by have := h.mapped k; cases k <;> exact this⟩

/-- The tables CFG_T builds, for three legal duties and one below the range. -/
theorem based_sound : (based 2).Sound ∧ (based 4).Sound ∧ (based 10).Sound ∧ (based 18).Sound := by
  refine ⟨⟨by decide, fun k => ?_, fun k => ?_⟩, ⟨by decide, fun k => ?_, fun k => ?_⟩, ⟨by decide, fun k => ?_, fun k => ?_⟩,
    ⟨by decide, fun k => ?_, fun k => ?_⟩⟩ <;> cases k <;> decide

theorem running_sound : running.Sound := ⟨by decide, fun k => by cases k <;> decide, fun k => by cases k <;> decide⟩

theorem at_sound (sh : Shape) (n : FreqIndex) (c : Nat) (pend : Bool) :
    (at_ sh n 2 c pend).Sound ∧ (at_ sh n 10 c pend).Sound ∧ (at_ sh n 18 c pend).Sound :=
  ⟨sound_of_tables based_sound.1 sh n 2 c pend, sound_of_tables based_sound.2.2.1 sh n 10 c pend,
   sound_of_tables based_sound.2.2.2 sh n 18 c pend⟩

/-- A sound state in RUN with built tables, a duty of CFG_T's range and an untouched dispatcher meets the invariant, whatever
SHAPE, FREQ, TICK_PEND and the schedule. -/
theorem inv_of_tables {s : State} {d : Nat} (h : s.Sound) (hb : ({ s with duty := d } : State).Built) (hr : s.phase = .run)
    (ht : s.trace = []) (h1 : s.cfg.dutyMin ≤ d) (h2 : d ≤ s.cfg.dutyMax) (h3 : s.cfg.dutyStep ∣ d - s.cfg.dutyMin)
    (sh : Shape) (n : FreqIndex) (pend : Bool) (l : List Event) :
    ({ withRegs s sh n d 0 pend with schedule := l } : State).Inv where
  sound := ⟨h.cfgWf, fun k => by have := h.canonical k; cases k <;> exact this, fun k => by have := h.mapped k; cases k <;> exact this⟩
  dutyRange := ⟨h1, h2⟩
  dutyAligned := h3
  cursorBound := Nat.zero_le _
  cursorZero := fun _ => ⟨fun _ => ht, fun _ => rfl⟩
  framePrefix := fun f hf => by simp [withRegs, ht] at hf
  idle := fun h => absurd hr h
  built := fun _ => ⟨hb.sine, hb.square, hb.saw, hb.triUp, hb.triGap, hb.triDown⟩

theorem based_built : ({ based 2 with duty := 2 } : State).Built ∧ ({ based 10 with duty := 10 } : State).Built ∧
    ({ based 18 with duty := 18 } : State).Built := by
  refine ⟨?_, ?_, ?_⟩ <;> exact
    ⟨by decide, by decide, by decide, by decide, fun i h1 h2 => by
        have h1 : 3 < i := h1
        have h2 : i < 5 := h2
        obtain rfl : i = 4 := by omega
        decide, fun i h1 h2 => by
        have h1 : 5 ≤ i := h1
        have h2 : i < 8 := h2
        obtain rfl | rfl | rfl : i = 5 ∨ i = 6 ∨ i = 7 := by omega
        all_goals decide⟩

/-- CFG_T running with a legal duty and a cursor that has not moved meets the invariant, whatever is scheduled. -/
theorem at_inv (sh : Shape) (n : FreqIndex) (d : Nat) (pend : Bool) (l : List Event) (hd : d = 2 ∨ d = 10 ∨ d = 18) :
    ({ at_ sh n d 0 pend with schedule := l } : State).Inv := by
  unfold at_
  rcases hd with rfl | rfl | rfl
  · exact inv_of_tables based_sound.1 based_built.1 (by decide) (by decide) (by decide) (by decide) (by decide) sh n pend l
  · exact inv_of_tables based_sound.2.2.1 based_built.2.1 (by decide) (by decide) (by decide) (by decide) (by decide) sh n pend l
  · exact inv_of_tables based_sound.2.2.2 based_built.2.2 (by decide) (by decide) (by decide) (by decide) (by decide) sh n pend l

theorem at_inv_self (sh : Shape) (n : FreqIndex) (d : Nat) (pend : Bool) (hd : d = 2 ∨ d = 10 ∨ d = 18) :
    (at_ sh n d 0 pend).Inv := by
  have h := at_inv sh n d pend (at_ sh n d 0 pend).schedule hd
  generalize at_ sh n d 0 pend = s at h ⊢
  exact h

/-- The bounds of the reserved ranges and a step on one of them (ReservedCodesAreThoseListedAndIgnored). -/
theorem witness_reserved : ([0x7F, 0x84, 0x8F, 0x98, 0x9F, 0xA2, 0xAF, 0xB1, 0xBF, 0xC1, 0xFF, 0x22, 0x24, 0x29, 0x2B, 0x2F, 0x3A]
      : List CmdCode).all (fun c => decide (decodeCmd c = .reserved c)) = true ∧
    ({ running with schedule := [.cmd 0x84] } : State).schedule = .cmd 0x84 :: [] ∧ running.cfg.wf = true := by decide

/-- StepPerformsDecodedOperation: an operation, and an empty schedule. -/
theorem witness_step : ({ running with schedule := [.cmd 0x36] } : State).schedule = .cmd 0x36 :: [] ∧
    decodeEvent (.cmd 0x36) = .instr .key6 ∧ running.schedule = [] ∧ running.cfg.wf = true := by decide

/-- EncodedOperationsDecodeBack and DecodedEventsEncodeBack. -/
theorem witness_encode : Instr.wf (.setfreq 7) = true ∧ decodeEvent (.cmd 0x97) = .instr (.setfreq 7) := by decide

/-- ConfigurationCheckIsNineItems, NoOperationFaults, RunsFromResetNeverStop: both sides of the check. -/
theorem witness_cfg : Cfg.illustrative.wf = true ∧ ({ Cfg.illustrative with sinkPrefix := 16 } : Cfg).wf = false := by decide

/-- WidthsAreLeast: a width below the least, and CFG_T at the least `W_C`. -/
theorem witness_width : 4 < leastWidth 20 ∧ Cfg.illustrative.leastCursorWidth = Cfg.illustrative.cursorWidth ∧
    max Cfg.illustrative.dutyMax Cfg.illustrative.lenSquare < 2 ^ 5 := by decide

/-- ResetStateHasListedValues, ResetLeavesResetState, ResetStateMeetsInvariant: a well-formed configuration and a mapped entry. -/
theorem witness_reset : Cfg.illustrative.wf = true ∧ State.reset.cfg.wf = true ∧ 7 < Cfg.illustrative.depth .triangle := by decide

/-- InitOkBuildsTablesAndRuns: the reset state is sound and in UNINIT; its gap has an entry. -/
theorem witness_init : State.reset.Sound ∧ State.reset.phase = .uninit ∧ Cfg.illustrative.triBp1 < 4 ∧
    4 < Cfg.illustrative.triBp2 :=
  ⟨⟨by decide, fun k => by cases k <;> rfl, fun k => by cases k <;> rfl⟩, rfl, by decide, by decide⟩

/-- InitFailHaltsAndInitRunsOnlyInUninit, both clauses. -/
theorem witness_init_fail : State.reset.cfg.wf = true ∧ State.reset.phase = .uninit ∧ running.phase ≠ .uninit ∧
    halted.phase ≠ .uninit ∧ running.cfg.wf = true := by decide

/-- HaltIsLeftOnlyByReset, both clauses. -/
theorem witness_halt : halted.cfg.wf = true ∧ halted.phase = .halt ∧
    ({ halted with schedule := [.cmd 0x36] } : State).schedule = .cmd 0x36 :: [] ∧ Event.cmd 0x36 ≠ .rst ∧
    ({ halted with schedule := [.rst] } : State).schedule = .rst :: [] := by decide

/-- TickPerformsSixSteps, TickResetsCursorPastLengthToZero, TickClearsPendingFlagAlways, ShapeSwitchRevalidatesCursorAtNextTick:
an enabled tick with the cursor at the last entry, at the length and past it. -/
theorem witness_tick : (at_ .square .one 10 19 true).phase = .run ∧ (at_ .square .one 10 19 true).tickPend = true ∧
    (at_ .square .one 10 19 true).cfg.wf = true ∧
    (at_ .square .one 10 19 true).cursor < Cfg.illustrative.len .square ∧
    Cfg.illustrative.len .square ≤ (at_ .square .one 10 20 true).cursor ∧
    Cfg.illustrative.len .square ≤ (at_ .square .five 10 24 true).cursor := by decide

/-- TickIsEnabledExactlyWhenPendingInRun: enabled, and the two ways not to be. -/
theorem witness_tick_enabled : ((at_ .sine .one 10 0 true).phase = .run ∧ (at_ .sine .one 10 0 true).tickPend = true) ∧
    ¬ ((at_ .sine .one 10 0 false).phase = .run ∧ (at_ .sine .one 10 0 false).tickPend = true) ∧
    ¬ (State.reset.phase = .run ∧ State.reset.tickPend = true) ∧ State.reset.cfg.wf = true := by decide

/-- TickReadsOneEntryAndWritesThreeFields: two states that agree on what TICK reads and differ elsewhere. -/
theorem witness_tick_reads : (at_ .square .one 2 1 true).phase = .run ∧ (at_ .square .one 10 1 true).phase = .run ∧
    (at_ .square .one 2 1 true).cfg = (at_ .square .one 10 1 true).cfg ∧
    (at_ .square .one 2 1 true).duty ≠ (at_ .square .one 10 1 true).duty ∧
    (at_ .square .one 2 1 true).entry .square 5 ≠ (at_ .square .one 10 1 true).entry .square 5 ∧
    (at_ .square .one 2 1 true).square.read 1 = (at_ .square .one 10 1 true).square.read 1 := by decide
theorem witness_tick_reads_entry : lutRead (at_ .square .one 2 1 true) .square (at_ .square .one 2 1 true).fetchIndex
    = lutRead (at_ .square .one 10 1 true) .square (at_ .square .one 10 1 true).fetchIndex := by rfl

/-- TimerFireSetsPendingFlagInRun, both clauses. -/
theorem witness_timer : running.cfg.wf = true ∧ running.phase = .run ∧ State.reset.phase ≠ .run := by decide

/-- SetShapeWritesShapeOnly, SetFreqWritesLegalIndexOnly (at both ends of the legal range and outside it),
FrequencyKeysSelectPresets, ShapeKeysSelectShapes, TrySendAppendsSentOrDropped, FrameHoldsPrefixAndCode. -/
theorem witness_commands : running.cfg.wf = true ∧ running.phase = .run ∧ (1 ≤ (1 : BitVec 3).toNat ∧ (5 : BitVec 3).toNat ≤ 5) ∧
    ¬ (1 ≤ (0 : BitVec 3).toNat ∧ (0 : BitVec 3).toNat ≤ 5) ∧ ¬ (1 ≤ (6 : BitVec 3).toNat ∧ (6 : BitVec 3).toNat ≤ 5) := by decide

/-- AdjDutyStepsAndRebuildsOrIsIgnored: a step just within each bound, one just past it, and another shape. -/
theorem witness_adjduty : (at_ .square .one 10 5 false).Sound ∧ (at_ .square .one 10 5 false).phase = .run ∧
    16 + Cfg.illustrative.dutyStep ≤ Cfg.illustrative.dutyMax ∧ Cfg.illustrative.dutyMin + Cfg.illustrative.dutyStep ≤ 4 ∧
    Cfg.illustrative.dutyMax < (at_ .square .one 18 5 false).duty + Cfg.illustrative.dutyStep ∧
    (at_ .square .one 2 5 false).duty < Cfg.illustrative.dutyMin + Cfg.illustrative.dutyStep ∧
    (at_ .sine .one 10 5 false).shape ≠ .square :=
  ⟨(at_sound _ _ _ _).2.1, by decide, by decide, by decide, by decide, by decide, by decide⟩

/-- DutyStepsClampAtTheBounds, DutyKeysStepWithinBounds: inside the range and at each bound. -/
theorem witness_duty_bounds : (at_ .square .one 10 0 false).Inv ∧ (at_ .square .one 18 0 false).Inv ∧
    (at_ .square .one 2 0 false).Inv ∧ (at_ .square .one 18 0 false).duty = Cfg.illustrative.dutyMax ∧
    (at_ .square .one 2 0 false).duty = Cfg.illustrative.dutyMin ∧ (at_ .sine .one 10 0 false).Inv ∧
    (at_ .sine .one 10 0 false).phase = .run :=
  ⟨at_inv_self _ _ _ _ (by decide), at_inv_self _ _ _ _ (by decide), at_inv_self _ _ _ _ (by decide), by decide, by decide,
   at_inv_self _ _ _ _ (by decide), by decide⟩

/-- RstDutyRestoresFiftyPercentInSquare, RstAllRestoresDefaults, ResetKeysRestoreDutyAndDefaults: in Square and off it. -/
theorem witness_rst : (at_ .square .two 18 3 false).Sound ∧ (at_ .square .two 18 3 false).phase = .run ∧
    (at_ .square .two 18 3 false).shape = .square ∧ (at_ .sine .two 18 3 false).Sound ∧
    (at_ .sine .two 18 3 false).shape ≠ .square :=
  ⟨(at_sound _ _ _ _).2.2, by decide, by decide, (at_sound _ _ _ _).2.2, by decide⟩

/-- CommandsOutsideRunChangeNothing, CommandsNeitherReadNorWriteDispatcherState: a command, and a state that accepts none. -/
theorem witness_not_accepted : IsCommand .key6 ∧ State.reset.cmdReady = false ∧ halted.cmdReady = false ∧
    running.cmdReady = true ∧ State.reset.cfg.wf = true := ⟨⟨0x36, rfl⟩, by decide, by decide, by decide, by decide⟩

/-- DutyIsStickyAcrossOtherShapes: the duty key off Square. -/
theorem witness_sticky : ({ at_ .sine .one 18 5 false with schedule := [.cmd 0x30] } : State).phase = .run ∧
    (at_ .sine .one 18 5 false).shape ≠ .square ∧ (at_ .sine .one 18 5 false).cfg.wf = true ∧
    decodeEvent (.cmd 0x30) ≠ .instr .reset ∧ decodeEvent (.cmd 0x30) ≠ .instr .rstall ∧
    decodeEvent (.cmd 0x30) ≠ .instr .key9 := by decide

/-- BuildSquareFillsSquareTable, BuildSawFillsSawtoothTable, BuildTriFillsTwoSegments, LutWriteChangesOneEntry,
UnmappedLutAccessFaults, FlatAddressNamesTheEntry: a sound state, the last mapped entry, the first unmapped one, and the last
index of `W_C` bits. -/
theorem witness_lut : running.Sound ∧ 7 < running.cfg.depth .triangle ∧ running.cfg.depth .triangle ≤ 8 ∧
    31 < 2 ^ running.cfg.cursorWidth ∧ 2 ^ (2 + running.cfg.cursorWidth) ≤ 128 ∧ 19 < running.cfg.len .square ∧
    running.cfg.wf = true :=
  ⟨running_sound, by decide, by decide, by decide, by decide, by decide, by decide⟩

/-- CFG_T's SINE_ROM has the half-unit property (BuildSineFillsSineTable). -/
theorem witness_sine_half_unit : Cfg.illustrative.SineHalfUnit := by
  intro i hi
  have hi : i < 8 := hi
  have h1 : Real.sin (4 * Real.pi / 8) = 1 := by rw [show 4 * Real.pi / 8 = Real.pi / 2 by ring, Real.sin_pi_div_two]
  have h2 : Real.sin (4 * Real.pi * 2 / 8) = 0 := by rw [show 4 * Real.pi * 2 / 8 = Real.pi by ring, Real.sin_pi]
  have h3 : Real.sin (4 * Real.pi * 3 / 8) = -1 := by
    rw [show 4 * Real.pi * 3 / 8 = Real.pi / 2 + Real.pi by ring, Real.sin_add_pi, Real.sin_pi_div_two]
  have h4 : Real.sin (4 * Real.pi * 4 / 8) = 0 := by rw [show 4 * Real.pi * 4 / 8 = 2 * Real.pi by ring, Real.sin_two_pi]
  have h5 : Real.sin (4 * Real.pi * 5 / 8) = 1 := by
    rw [show 4 * Real.pi * 5 / 8 = Real.pi / 2 + 2 * Real.pi by ring, Real.sin_add_two_pi, Real.sin_pi_div_two]
  have h6 : Real.sin (4 * Real.pi * 6 / 8) = 0 := by
    rw [show 4 * Real.pi * 6 / 8 = Real.pi + 2 * Real.pi by ring, Real.sin_add_two_pi, Real.sin_pi]
  have h7 : Real.sin (4 * Real.pi * 7 / 8) = -1 := by
    rw [show 4 * Real.pi * 7 / 8 = Real.pi / 2 + Real.pi + 2 * Real.pi by ring, Real.sin_add_two_pi, Real.sin_add_pi,
      Real.sin_pi_div_two]
  interval_cases i <;> norm_num [Cfg.illustrative, h1, h2, h3, h4, h5, h6, h7]

/-- A one-entry-pair configuration that is well-formed, whose SINE_ROM is the formula's table and whose LEN_SINE is even
(SineTableHoldsTwoEqualPeriods): amplitude 0. -/
def flatSine : Cfg := { Cfg.illustrative with lenSine := 2, sineAmpl := 0, sineDc := 7, sineRom := [7, 7] }

theorem witness_sine_rounded : (State.resetOf flatSine).Sound ∧ flatSine.SineRounded ∧ flatSine.lenSine = 2 * 1 := by
  refine ⟨⟨by decide, fun k => by cases k <;> rfl, fun k => by cases k <;> rfl⟩, ⟨round, fun x => ?_, fun i hi => ?_⟩, rfl⟩
  · rw [abs_sub_comm]
    exact abs_sub_round x
  · have hi : i < 2 := hi
    interval_cases i <;> simp [flatSine, Cfg.illustrative]

/-- StepKeepsInvariant, AgentsWriteOnlyTheirOwnState: a step that completes, of each agent, the first from a state with the
invariant. -/
theorem witness_step_inv : ({ at_ .square .one 10 0 true with schedule := [.serviceTick true] } : State).Inv ∧
    ends (step { at_ .square .one 10 0 true with schedule := [.serviceTick true] }) (fun _ => true) = true ∧
    ends (step { running with schedule := [.cmd 0x36] }) (fun _ => true) = true ∧
    ends (step { running with schedule := [.timerEvt] }) (fun _ => true) = true ∧
    ends (step { State.reset with schedule := [.initGo true] }) (fun _ => true) = true ∧
    Event.agent (.serviceTick true) = .dispatcher ∧ Event.agent (.cmd 0x36) = .commandSource ∧
    Event.agent .timerEvt = .timer ∧ Event.agent (.initGo true) = .environment :=
  ⟨at_inv _ _ _ _ _ (by decide), by decide, by decide, by decide, by decide, rfl, rfl, rfl, rfl⟩

theorem steps_initGo : steps 1 ((State.resetOf Cfg.illustrative).setSchedule [.initGo true]) = .next running := by
  obtain ⟨t, h⟩ : ∃ t, steps 1 ((State.resetOf Cfg.illustrative).setSchedule [.initGo true]) = .next t :=
    exists_next (by decide)
  have : ends (steps 1 ((State.resetOf Cfg.illustrative).setSchedule [.initGo true])) (fun t => decide (t = running)) = true := by
    decide
  rw [h] at this ⊢
  simpa [ends] using this

/-- ReachableStatesMeetInvariant, RegistersStayInTheirLegalRanges: the running state is reachable. -/
theorem witness_reachable : Cfg.illustrative.wf = true ∧ Reachable Cfg.illustrative running :=
  ⟨by decide, [.initGo true], 1, steps_initGo⟩

/-- OtherTablesImmutableInRun, SamplesNeverOutnumberTimerEvents: a run of two steps without RESET. -/
theorem witness_run : running.phase = .run ∧
    (∀ e ∈ ({ running with schedule := [.timerEvt, .serviceTick true] } : State).schedule, e ≠ .rst) ∧
    ends (steps 2 { running with schedule := [.timerEvt, .serviceTick true] }) (fun t => decide (t.trace.length = 1)) = true := by
  decide

/-- IndexSequenceHasCeilPeriod, TicksPlayTheTableThrough: seven ticks of step 3 through 20 entries. -/
theorem witness_ticks : ({ at_ .square .three 10 0 false with
      schedule := tickEvents [true, false, true, true, true, true, true] ++ [] } : State).Inv ∧
    (at_ .square .three 10 0 false).phase = .run ∧ (at_ .square .three 10 0 false).cfg.advanceOnDrop = true ∧
    (at_ .square .three 10 0 false).fetchIndex = 0 := ⟨at_inv _ _ _ _ _ (by decide), by decide, by decide, by decide⟩

/-- PassFromInsideTheTableEndsAtZero: the last fetch at the last entry, and one before it. -/
theorem witness_pass : (at_ .square .one 10 0 false).fetchIndex + (20 - 1) * FreqIndex.one.toNat < Cfg.illustrative.len .square ∧
    (at_ .square .one 10 0 false).fetchIndex + (19 - 1) * FreqIndex.one.toNat < Cfg.illustrative.len .square ∧
    ({ at_ .square .one 10 0 false with schedule := tickEvents (List.replicate 20 true) ++ [] } : State).Inv :=
  ⟨by decide, by decide, at_inv _ _ _ _ _ (by decide)⟩

/-- ClockPeriodServicesTickBeforeCommand: V-E3, and a period with RESET. -/
theorem witness_clock_period : ({ at_ .square .one 10 9 true with
      schedule := ClockPeriod.events ⟨false, false, true, some 0xA0⟩ ++ [] } : State).schedule
        = [.serviceTick true, .cmd 0xA0] ∧
    (at_ .square .one 10 9 true).phase = .run ∧ (at_ .square .one 10 9 true).tickPend = true ∧
    (at_ .square .one 10 9 true).cfg.wf = true ∧
    ClockPeriod.events ⟨true, true, true, some 0xA0⟩ = [.rst, .timerEvt, .serviceTick true, .cmd 0xA0] := by decide

end Sys2Proof.Tests
end

section
/-! PROOFS. The dispatcher's TICK (40_dispatcher_tick.md): one law of an enabled tick, and the statements about its bound check,
its pending flag and what it reads and writes. -/

namespace Sys2Proof.Machine

open Sys2Proof

/-! ## The index a tick fetches -/

/-- R102. -/
theorem State.fetchIndex_of_lt {s : State} (h : s.cursor < s.cfg.len s.shape) : s.fetchIndex = s.cursor := boundCheck_of_lt h

/-- R102. -/
theorem State.fetchIndex_of_le {s : State} (h : s.cfg.len s.shape ≤ s.cursor) : s.fetchIndex = 0 := boundCheck_of_le h

/-- R109 (i). -/
theorem State.fetchIndex_lt_len {s : State} (hc : s.cfg.Wf) : s.fetchIndex < s.cfg.len s.shape := boundCheck_lt (hc.lenPos _)

/-- The fetch of a tick is always mapped (R53). -/
theorem State.fetchIndex_lt_depth {s : State} (hc : s.cfg.Wf) : s.fetchIndex < s.cfg.depth s.shape :=
  Nat.lt_of_lt_of_le (State.fetchIndex_lt_len hc) (hc.len_le_depth _)

/-- The fetch index is a function of the configuration, SHAPE and CURSOR. -/
theorem State.fetchIndex_congr {s u : State} (hcfg : u.cfg = s.cfg) (hshape : u.shape = s.shape) (hcursor : u.cursor = s.cursor) :
    u.fetchIndex = s.fetchIndex := by
  simp only [State.fetchIndex, hcfg, hshape, hcursor]

/-! ## An enabled tick -/

/-- TICK in RUN with an event pending, as one write of the state (R101 to R106). -/
theorem exec_tick_of_pending {s : State} (hw : s.cfg.wf = true) (hp : s.phase = .run) (ht : s.tickPend = true) (rdy : Bool) :
    exec (.tick rdy) s = .next { s with
      cursor := s.fetchIndex + if rdy || s.cfg.advanceOnDrop then s.freq.toNat else 0
      tickPend := false
      trace := s.trace ++ [sampleEvent s s.shape s.fetchIndex rdy] } := by
  have hop := tickOperation_of_enabled (.of_wf hw) (tickEnabled_iff.mpr ⟨hp, ht⟩) rdy
  calc exec (.tick rdy) s = perform s (tickOperation rdy s) := rfl
    _ = _ := by rw [hop, perform_ok hw]; rfl

/-- A pending flag that is clear disables TICK, in every PHASE (R100). -/
theorem tickEnabled_of_not_pending {s : State} (h : s.tickPend = false) : s.tickEnabled = false := by
  simp [State.tickEnabled, h]

/-- The trace element of a tick depends on the configuration and the one entry fetched (R103, R104). -/
theorem sampleEvent_congr {s u : State} {sh : Shape} {i : Nat} (hcfg : u.cfg = s.cfg) (hi : i < s.cfg.depth sh)
    (hread : lutRead u sh i = lutRead s sh i) (rdy : Bool) : sampleEvent u sh i rdy = sampleEvent s sh i rdy := by
  have hentry : (u.table sh).read i = (s.table sh).read i := by
    rwa [lutRead_of_lt (hcfg ▸ hi), lutRead_of_lt hi, Except.ok.injEq] at hread
  simp only [sampleEvent, hcfg, hentry]

/-! ## The statements -/

/-- Settles O17: the one write an enabled tick makes is the same in both states, as they fetch the same index, hence the same
entry, and advance by the same step. -/
theorem tickReadsOneEntryAndWritesThreeFields : Obligations.TickReadsOneEntryAndWritesThreeFields := by
  intro s u rdy hw hp ht hpu htu hcfg hshape hfreq hcursor hread
  have hindex : u.fetchIndex = s.fetchIndex := State.fetchIndex_congr hcfg hshape hcursor
  rw [hshape, hindex] at hread
  have hevent := sampleEvent_congr hcfg (State.fetchIndex_lt_depth (.of_wf hw)) hread rdy
  refine ⟨_, _, exec_tick_of_pending hw hp ht rdy, ?_⟩
  rw [exec_tick_of_pending (hcfg ▸ hw) hpu htu, hindex, hcfg, hfreq, hshape, hevent]

/-- Settles O15: past the length the index is 0, which is also the index of the state with CURSOR 0, and the tick uses CURSOR
through that index only. -/
theorem tickResetsCursorPastLengthToZero : Obligations.TickResetsCursorPastLengthToZero := by
  intro s rdy hw hp ht
  have hc : s.cfg.Wf := .of_wf hw
  refine ⟨fun hle => ?_, State.fetchIndex_of_lt, State.fetchIndex_lt_len hc, _, exec_tick_of_pending hw hp ht rdy, rfl⟩
  have hzero : ({ s with cursor := 0 } : State).fetchIndex = 0 := State.fetchIndex_of_lt (hc.lenPos _)
  rw [exec_tick_of_pending hw hp ht, exec_tick_of_pending (s := { s with cursor := 0 }) hw hp ht, hzero,
    State.fetchIndex_of_le hle]
  rfl

/-- Settles O16: the one write of an enabled tick clears the flag, whatever the sink's readiness. -/
theorem tickClearsPendingFlagAlways : Obligations.TickClearsPendingFlagAlways := by
  intro s rdy hw hp ht
  exact ⟨_, exec_tick_of_pending hw hp ht rdy, rfl, tickEnabled_of_not_pending rfl⟩

end Sys2Proof.Machine
end

section
/-! PROOFS. The key codes (41_control_commands.md, R137): each key as its primitive command. An arm of a key and the arm of its
primitive hand the same command to `perform`, so the two agree before any guard is looked at: in every PHASE, and for a
configuration that is not well-formed too. As simp lemmas they turn a key into its primitive command. -/

namespace Sys2Proof.Machine

open Sys2Proof

/-- R140. -/
@[simp] theorem exec_key0 (s : State) : exec .key0 s = exec .rstduty s := rfl

/-- R141. -/
@[simp] theorem exec_key1 (s : State) : exec .key1 s = exec (.setfreq 1) s := rfl

/-- R142. -/
@[simp] theorem exec_key2 (s : State) : exec .key2 s = exec (.setfreq 2) s := rfl

/-- R143. -/
@[simp] theorem exec_key3 (s : State) : exec .key3 s = exec (.setfreq 3) s := rfl

/-- R144. -/
@[simp] theorem exec_key4 (s : State) : exec .key4 s = exec (.setfreq 4) s := rfl

/-- R145. -/
@[simp] theorem exec_key5 (s : State) : exec .key5 s = exec (.setfreq 5) s := rfl

/-- R146. -/
@[simp] theorem exec_key6 (s : State) : exec .key6 s = exec (.setshape .sine) s := rfl

/-- R147. -/
@[simp] theorem exec_key7 (s : State) : exec .key7 s = exec (.setshape .triangle) s := rfl

/-- R148. -/
@[simp] theorem exec_key8 (s : State) : exec .key8 s = exec (.setshape .square) s := rfl

/-- R149. -/
@[simp] theorem exec_key9 (s : State) : exec .key9 s = exec .rstall s := rfl

/-- R150. -/
@[simp] theorem exec_keystar (s : State) : exec .keystar s = exec (.adjduty .minus) s := rfl

/-- R151. -/
@[simp] theorem exec_keyhash (s : State) : exec .keyhash s = exec (.adjduty .plus) s := rfl

/-- Settles O26: the twelve rules of the keys, one by one. -/
theorem keysPerformTheirPrimitiveCommands : Obligations.KeysPerformTheirPrimitiveCommands := fun s =>
  ⟨exec_key0 s, exec_key1 s, exec_key2 s, exec_key3 s, exec_key4 s, exec_key5 s, exec_key6 s, exec_key7 s, exec_key8 s,
    exec_key9 s, exec_keystar s, exec_keyhash s⟩

end Sys2Proof.Machine
end

section
/-! PROOFS. The Square build (42_table_builder.md, R162): what a completed fill says of the entries read back, and from it what
BUILDSQUARE leaves. -/

namespace Sys2Proof.Machine

open Sys2Proof

/-! ## The levels -/

/-- R162. -/
theorem squareEntry_of_lt {c : Cfg} {t i : Nat} (h : i < t) : squareEntry c t i = c.sqHigh := if_pos h

/-- R162. -/
theorem squareEntry_of_le {c : Cfg} {t i : Nat} (h : t ≤ i) : squareEntry c t i = c.sqLow := if_neg (Nat.not_lt.mpr h)

/-! ## A filled table, read back -/

/-- A filled entry reads back as the number the fill gave it, if that number fits an entry (R183). -/
theorem Filled.entry {t : State} {sh : Shape} {m : Memory} {value : Nat → Nat} {first count i : Nat}
    (f : Filled m (t.table sh) (fun j => codeOf (value j)) first count) (hdepth : i < t.cfg.depth sh) (hfirst : first ≤ i)
    (hlast : i < first + count) (hfits : value i ≤ codeMax) : t.entry sh i = some (value i) := by
  rw [entry_of_lt hdepth, f.inside i hfirst hlast, codeOf_toNat hfits]

/-- A state of the same configuration whose Square table is filled for `d`, and whose other tables are as they were, is rebuilt
for `d`, whatever became of the registers. -/
theorem SquareRebuilt.of_filled {s t : State} {d : Nat} (hc : s.cfg.Wf) (hcfg : t.cfg = s.cfg)
    (hothers : ∀ k, k ≠ .square → t.table k = s.table k)
    (f : Filled (s.table .square) (t.table .square) (fun i => codeOf (squareEntry s.cfg d i)) 0 s.cfg.lenSquare) :
    SquareRebuilt s t d := by
  have hentry : ∀ i < s.cfg.lenSquare, t.entry .square i = some (squareEntry s.cfg d i) := fun i hi =>
    f.entry (hcfg ▸ hi) (Nat.zero_le i) (by omega) (hc.squareEntry_le d i)
  refine ⟨fun i hi hlt => ?_, fun i hi hle => ?_, fun k i h => lutRead_congr hcfg ?_⟩
  · rw [hentry i hi, squareEntry_of_lt hlt]
  · rw [hentry i hi, squareEntry_of_le hle]
  · by_cases hk : k = .square
    · subst hk
      have hpast : s.cfg.lenSquare ≤ i := h.resolve_left (· rfl)
      exact f.outside i (.inr (by omega))
    · rw [hothers k hk]

/-! ## The statement -/

/-- Settles O36: the build completes with the Square table filled and the other tables, by `setTable`, as they were. -/
theorem buildSquareFillsSquareTable : Obligations.BuildSquareFillsSquareTable := by
  intro s t hs
  obtain ⟨m, hbuild, hfilled⟩ := buildSquare_spec t (hs.canonical .square)
  refine ⟨m, ?_, .of_filled (.of_wf hs.cfgWf) rfl (fun _ => State.setTable_table_other s m) hfilled⟩
  calc exec (.buildsquare t) s = perform s (buildSquare t s) := rfl
    _ = .next (s.setTable .square m) := by rw [hbuild, perform_ok hs.cfgWf]

end Sys2Proof.Machine
end

section
/-! PROOFS. The encodings (30_encoding.md): decoding undoes encoding and the other way round, and the reserved codes. -/

namespace Sys2Proof.Machine

open Sys2Proof

/-! ## Decoding and encoding are inverse to each other -/

/-- R71, R73, R74, R81: the encoding of an operation decodes back to it, with its operand. -/
theorem decodeEvent_of_encode {i : Instr} {e : Event} (h : encode i = some e) : decodeEvent e = .instr i := by
  have hfreq : ∀ n : BitVec 3, decodeCmd (formatX 1 (0#1 ++ n)) = .instr (.setfreq n) := by decide
  cases i with
  | setshape sh => cases h; cases sh <;> rfl
  | setfreq n => cases h; exact hfreq n
  | adjduty d => cases h; cases d <;> rfl
  | trysend _ _ | buildsine | buildsquare _ | buildsaw | buildtri => cases h
  | _ => cases h; rfl

/-- R71: no two codes share an operation. -/
theorem encode_of_decodeCmd {c : CmdCode} {i : Instr} (h : decodeCmd c = .instr i) : encode i = some (.cmd c) := by
  have key : ∀ c : CmdCode, (match decodeCmd c with
      | .instr i => encode i
      | .reserved _ => some (.cmd c)) = some (.cmd c) := by decide
  have hc := key c
  rwa [h] at hc

/-- R81: an event is the encoding of the operation it decodes to. -/
theorem encode_of_decodeEvent {e : Event} {i : Instr} (h : decodeEvent e = .instr i) : encode i = some e := by
  cases e with
  | cmd c => exact encode_of_decodeCmd h
  | rst | initGo _ | timerEvt | serviceTick _ => cases h; rfl

/-- An operation stands on the inputs exactly where it has an encoding (R81). -/
theorem wf_iff_encode (i : Instr) : i.wf = true ↔ ∃ e, encode i = some e := by
  have hsome : i.wf = (encode i).isSome := by cases i <;> rfl
  rw [hsome, Option.isSome_iff_exists]

/-! ## The statements -/

/-- Settles O1: the twelve codes, looked up in the tables. -/
theorem listedCodesDecodeAsTabulated : Obligations.ListedCodesDecodeAsTabulated := by
  unfold Obligations.ListedCodesDecodeAsTabulated
  decide

/-- Settles O2: an operation that can be presented has an encoding, and it decodes back. -/
theorem encodedOperationsDecodeBack : Obligations.EncodedOperationsDecodeBack := by
  intro i hi
  obtain ⟨e, he⟩ := (wf_iff_encode i).mp hi
  exact ⟨e, he, decodeEvent_of_encode he⟩

/-- Settles O3: the event is the operation's encoding, so the operation has one. -/
theorem decodedEventsEncodeBack : Obligations.DecodedEventsEncodeBack := by
  intro e i h
  have he := encode_of_decodeEvent h
  exact ⟨he, (wf_iff_encode i).mpr ⟨e, he⟩⟩

/-- Settles O4: the list of R78 is checked on the 256 codes, and a step on a reserved code only takes it off the schedule. -/
theorem reservedCodesAreThoseListedAndIgnored : Obligations.ReservedCodesAreThoseListedAndIgnored := by
  refine ⟨by decide, fun c i h => by simp [h], fun s c rest hw hs hc => ?_⟩
  calc step s = runDecoded (decodeCmd c) (s.setSchedule rest) := step_of_cons hs
    _ = perform (s.setSchedule rest) (.ok (s.setSchedule rest)) := by rw [hc]; rfl
    _ = .next (s.setSchedule rest) := perform_ok hw

/-- Settles O5: the head of the schedule is performed, and an empty schedule idles. -/
theorem stepPerformsDecodedOperation : Obligations.StepPerformsDecodedOperation := by
  refine ⟨fun s e rest i hs hd => ?_, fun s => step_of_empty⟩
  rw [step_of_cons hs, hd]
  rfl

end Sys2Proof.Machine
end

section
/-! PROOFS. The configuration check (R7) and the computed widths (R6). -/

namespace Sys2Proof.Cfg

open Sys2Proof Sys2Proof.Machine

/-- The checks of R7 as propositions give the check back: the converse of `Wf.of_wf`. -/
theorem Wf.wf {c : Cfg} (h : c.Wf) : c.wf = true := by
  have hdown : ∀ k < c.depthTri - c.triBp2, c.triDnSlope * k ≤ c.triDnBase ∧ c.triDnBase - c.triDnSlope * k ≤ codeMax :=
    fun k hk => ⟨h.downFits k hk, h.downLe k hk⟩
  have hup : ∀ i < c.triBp1 + 1, c.triUpBase + c.triUpSlope * i ≤ codeMax := fun i hi => h.upLe i (by omega)
  simp only [Cfg.wf, lengthsOk, cursorWidthOk, dutyRangeOk, dutyAlignedOk, squareLevelsOk, sineRomOk, sawOk, triangleOk,
    sinkPrefixOk, Bool.and_eq_true, decide_eq_true_eq, List.all_eq_true, List.mem_range]
  exact ⟨⟨⟨⟨⟨⟨⟨⟨⟨⟨⟨⟨h.lenPos .sine, h.lenPos .square⟩, h.lenPos .sawtooth⟩, h.lenPos .triangle⟩, h.triDepth⟩, h.cursorWidth⟩,
    ⟨⟨h.dutyLow, h.dutyHigh⟩, h.dutyLen⟩, h.stepPos⟩,
    Nat.mod_eq_zero_of_dvd h.alignedLow, Nat.mod_eq_zero_of_dvd h.alignedHigh⟩, h.sqHigh, h.sqLow⟩, h.sineLength, h.sineLe⟩,
    h.sawLe⟩, ⟨⟨h.bpOrder, h.bpDepth⟩, hup⟩, hdown⟩, h.sinkPrefix⟩

/-- `M` is the greatest of the four lengths: a bound of each is a bound of `M` (R109). -/
theorem maxLen_add_le_iff {c : Cfg} {k n : Nat} : c.maxLen + k ≤ n ↔ ∀ sh, c.len sh + k ≤ n := by
  refine ⟨fun h sh => ?_, fun h => ?_⟩
  · have := c.len_le_maxLen sh
    omega
  · have h1 := h .sine
    have h2 := h .square
    have h3 := h .sawtooth
    have h4 := h .triangle
    simp only [len] at h1 h2 h3 h4
    simp only [maxLen]
    omega

end Sys2Proof.Cfg

namespace Sys2Proof.Machine

open Sys2Proof

/-! ## The least width -/

/-- The search ends at the least width from `start` on, if one lies within its fuel. -/
theorem leastWidthFrom_spec {n : Nat} (fuel start : Nat) (hfuel : n < 2 ^ (start + fuel)) (hbelow : ∀ w < start, 2 ^ w ≤ n) :
    n < 2 ^ leastWidthFrom n fuel start ∧ ∀ w < leastWidthFrom n fuel start, 2 ^ w ≤ n := by
  induction fuel generalizing start with
  | zero => exact ⟨hfuel, hbelow⟩
  | succ fuel ih =>
    unfold leastWidthFrom
    split
    · exact ⟨‹_›, hbelow⟩
    · rename_i hlarge
      refine ih (start + 1) (by rwa [Nat.succ_add_eq_add_succ]) fun w hw => ?_
      rcases Nat.lt_succ_iff_lt_or_eq.mp hw with hlt | rfl
      · exact hbelow w hlt
      · exact Nat.not_lt.mp hlarge

theorem leastWidth_spec (n : Nat) : n < 2 ^ leastWidth n ∧ ∀ w < leastWidth n, 2 ^ w ≤ n :=
  leastWidthFrom_spec n 0 (by rw [Nat.zero_add]; exact Nat.lt_two_pow_self) (by simp)

/-- The widths whose powers exceed `n` are those from `leastWidth n` on (R6). -/
theorem leastWidth_le_iff {n w : Nat} : leastWidth n ≤ w ↔ n < 2 ^ w := by
  obtain ⟨hlt, hleast⟩ := leastWidth_spec n
  refine ⟨fun h => Nat.lt_of_lt_of_le hlt (Nat.pow_le_pow_right (by decide) h), fun h => ?_⟩
  by_contra hn
  exact absurd (hleast w (Nat.not_le.mp hn)) (Nat.not_le.mpr h)

/-- The widths that pass item 2 of R7 are those from R6's least width on. -/
theorem leastCursorWidth_le_iff {c : Cfg} {w : Nat} : c.leastCursorWidth ≤ w ↔ c.maxLen + 5 ≤ 2 ^ w := leastWidth_le_iff

/-! ## A step under an ill-formed configuration -/

/-- Every step goes through `perform`, which refuses a configuration that fails R7 (U12). -/
theorem step_of_not_wf {s : State} (hw : s.cfg.wf = false) : step s = .refused .configIllFormed := by
  cases hs : s.schedule with
  | nil =>
    simp only [step, takeTurn, hs]
    exact perform_of_not_wf hw
  | cons e rest =>
    have hw' : (s.setSchedule rest).cfg.wf = false := hw
    rw [step_of_cons hs]
    cases decodeEvent e with
    | instr i => exact exec_of_not_wf i hw'
    | reserved c => exact perform_of_not_wf (r := .ok _) hw'

/-! ## The statements -/

/-- Settles O6: the check and its nine items as propositions say the same, item by item, and every operation and every
step is refused where it fails. -/
theorem configurationCheckIsNineItems : Obligations.ConfigurationCheckIsNineItems := by
  refine ⟨fun c => ⟨fun hw => ?_, ?_⟩, fun i s => exec_of_not_wf i, fun s => step_of_not_wf⟩
  · have h : c.Wf := .of_wf hw
    exact ⟨⟨h.lenPos .sine, h.lenPos .square, h.lenPos .sawtooth, h.lenPos .triangle, h.triDepth⟩,
      Cfg.maxLen_add_le_iff.mp h.cursorWidth, ⟨h.dutyLow, h.dutyHigh, h.dutyLen, h.stepPos⟩, ⟨h.alignedLow, h.alignedHigh⟩,
      ⟨h.sqHigh, h.sqLow⟩, ⟨h.sineLength, h.sineLe⟩, h.sawLe,
      ⟨h.bpOrder, h.bpDepth, h.upLe, fun i _ _ => ⟨h.downFits _ (by omega), h.downLe _ (by omega)⟩⟩, h.sinkPrefix⟩
  · rintro ⟨⟨hsine, hsquare, hsaw, htri, hdepth⟩, hwidth, ⟨hlow, hhigh, hlen, hstep⟩, ⟨halow, hahigh⟩, ⟨hsqh, hsql⟩,
      ⟨hrom, hromLe⟩, hsawLe, ⟨hbp, hbpDepth, hup, hdown⟩, hprefix⟩
    have hdown' : ∀ k < c.depthTri - c.triBp2,
        c.triDnSlope * k ≤ c.triDnBase ∧ c.triDnBase - c.triDnSlope * k ≤ codeMax := fun k hk => by
      simpa [codeMax] using hdown (c.triBp2 + k) (by omega) (by omega)
    exact Cfg.Wf.wf {
      lenPos := fun sh => by cases sh <;> assumption
      triDepth := hdepth, cursorWidth := Cfg.maxLen_add_le_iff.mpr hwidth
      dutyLow := hlow, dutyHigh := hhigh, dutyLen := hlen, stepPos := hstep, alignedLow := halow, alignedHigh := hahigh
      sqHigh := hsqh, sqLow := hsql, sineLength := hrom, sineLe := hromLe, sawLe := hsawLe
      bpOrder := hbp, bpDepth := hbpDepth, upLe := hup
      downFits := fun k hk => (hdown' k hk).1
      downLe := fun k hk => (hdown' k hk).2
      sinkPrefix := hprefix }

/-- Settles O7: each clause says of one number that a width holds it exactly from the least one on. -/
theorem widthsAreLeast : Obligations.WidthsAreLeast := by
  refine ⟨leastWidth_spec, fun c => ⟨(leastWidth_spec _).1, fun w => leastWidth_le_iff.mpr⟩,
    fun c => ⟨fun w => leastCursorWidth_le_iff.symm, ?_⟩⟩
  rw [leastCursorWidth_le_iff, Cfg.cursorWidthOk, decide_eq_true_eq]
  rfl

end Sys2Proof.Machine
end

section
/-! PROOFS. What an operation leaves, as an equation of states: a loop of writes as a function of the table, the five primitive
commands (41_control_commands.md section 2) in RUN, and every operation outside the PHASE it is enabled in. -/

namespace Sys2Proof.Machine

open Sys2Proof

/-! ## A loop of writes as a function of the table -/

/-- The table that a loop of writes of entries `first .. first + count − 1` leaves of `m`. -/
def fillTable (value : Nat → Code) (first : Nat) : Nat → Memory → Memory
  | 0, m => m
  | count + 1, m => (fillTable value first count m).write (first + count) (value (first + count))

/-- A loop of writes within the depth replaces its table by the filled one. -/
theorem lutFill_eq (sh : Shape) (value : Nat → Code) (first count : Nat) (s : State) (hd : first + count ≤ s.cfg.depth sh) :
    lutFill sh value first count s = .ok (s.setTable sh (fillTable value first count (s.table sh))) := by
  induction count with
  | zero => simp [lutFill, fillTable]
  | succ count ih =>
    have hlt : first + count < (s.setTable sh (fillTable value first count (s.table sh))).cfg.depth sh := by simp; omega
    simp only [lutFill, ih (by omega), lutWrite_of_lt hlt, fillTable, State.setTable_table_same, State.setTable_setTable]

/-- The Square table that BUILDSQUARE(d) leaves of `m` (R162). -/
def squareTable (c : Cfg) (d : Nat) (m : Memory) : Memory :=
  fillTable (fun i => codeOf (squareEntry c d i)) 0 c.lenSquare m

/-- The state after `DUTY <- d; BUILDSQUARE(DUTY)` (R133, R135). -/
def State.rebuilt (s : State) (d : Nat) : State := { s with duty := d, square := squareTable s.cfg d s.square }

theorem setDutyAndRebuild_eq (d : Nat) (s : State) : setDutyAndRebuild d s = .ok (s.rebuilt d) :=
  lutFill_eq .square _ 0 _ (s.setDuty d) (by simp [Cfg.depth])

/-- The Square table is filled with the two levels for the threshold (R162). -/
theorem squareTable_filled (c : Cfg) (d : Nat) {m : Memory} (hm : m.wf = true) :
    Filled m (squareTable c d m) (fun i => codeOf (squareEntry c d i)) 0 c.lenSquare := by
  have hs : (({ State.resetOf c with square := m } : State).table .square).wf = true := hm
  obtain ⟨m', hfill, hfilled⟩ := lutFill_spec .square (fun i => codeOf (squareEntry c d i)) 0 c.lenSquare _
    (by simp [Cfg.depth]) hs
  rw [lutFill_eq .square _ 0 _ _ (by simp [Cfg.depth])] at hfill
  obtain rfl : squareTable c d m = m' := congrArg State.square (Except.ok.inj hfill)
  exact hfilled

/-- A state that differs from the rebuilt one in registers only has its Square table rebuilt (R162, R59). -/
theorem State.Sound.squareRebuilt {s t : State} {d : Nat} (hs : s.Sound) (hcfg : t.cfg = s.cfg)
    (htable : ∀ k, t.table k = (s.rebuilt d).table k) : SquareRebuilt s t d := by
  refine .of_filled (.of_wf hs.cfgWf) hcfg (fun k hk => ?_) ?_
  · rw [htable]
    cases k with
    | square => exact absurd rfl hk
    | sine | triangle | sawtooth => rfl
  · rw [htable]
    exact squareTable_filled s.cfg d (hs.canonical .square)

/-! ## The primitive commands in RUN -/

section
variable {s : State} (hw : s.cfg.wf = true) (hp : s.phase = .run)
include hw hp

/-- An operation that needs RUN and is performed in it. -/
theorem perform_run {r : Except Fault State} {t : State} (h : r = .ok t) : perform s (whenPhase .run s r) = .next t := by
  rw [whenPhase_of_eq hp, h, perform_ok hw]

/-- R131. -/
theorem exec_setshape (sh : Shape) : exec (.setshape sh) s = .next { s with shape := sh } := perform_run hw hp rfl

/-- R132, a legal index. -/
theorem exec_setfreq_of_some {n : BitVec 3} {k : FreqIndex} (h : FreqIndex.ofOperand n = some k) :
    exec (.setfreq n) s = .next { s with freq := k } := perform_run hw hp (by simp only [h]; rfl)

/-- R132, an index that is not legal. -/
theorem exec_setfreq_of_none {n : BitVec 3} (h : FreqIndex.ofOperand n = none) : exec (.setfreq n) s = .next s :=
  perform_run hw hp (by simp only [h])

/-- R133, a step up within the bound. -/
theorem exec_adjduty_plus (hs : s.shape = .square) (hle : s.duty + s.cfg.dutyStep ≤ s.cfg.dutyMax) :
    exec (.adjduty .plus) s = .next (s.rebuilt (s.duty + s.cfg.dutyStep)) :=
  perform_run hw hp ((if_pos hs).trans ((if_pos hle).trans (setDutyAndRebuild_eq _ _)))

/-- R133, a step down within the bound. -/
theorem exec_adjduty_minus (hs : s.shape = .square) (hle : s.cfg.dutyMin + s.cfg.dutyStep ≤ s.duty) :
    exec (.adjduty .minus) s = .next (s.rebuilt (s.duty - s.cfg.dutyStep)) :=
  perform_run hw hp ((if_pos hs).trans ((if_pos hle).trans (setDutyAndRebuild_eq _ _)))

/-- R133, R134: off Square and past the bound a step up is ignored. -/
theorem exec_adjduty_plus_ignored (h : s.shape ≠ .square ∨ s.cfg.dutyMax < s.duty + s.cfg.dutyStep) :
    exec (.adjduty .plus) s = .next s := by
  refine perform_run hw hp ?_
  split
  · exact if_neg (Nat.not_le.mpr (h.resolve_left (not_not.mpr ‹_›)))
  · rfl

/-- R133, R134: off Square and past the bound a step down is ignored. -/
theorem exec_adjduty_minus_ignored (h : s.shape ≠ .square ∨ s.duty < s.cfg.dutyMin + s.cfg.dutyStep) :
    exec (.adjduty .minus) s = .next s := by
  refine perform_run hw hp ?_
  split
  · exact if_neg (Nat.not_le.mpr (h.resolve_left (not_not.mpr ‹_›)))
  · rfl

/-- R135 in Square. -/
theorem exec_rstduty_of_square (hs : s.shape = .square) : exec .rstduty s = .next (s.rebuilt s.cfg.duty50) :=
  perform_run hw hp ((if_pos hs).trans (setDutyAndRebuild_eq _ _))

/-- R135 off Square. -/
theorem exec_rstduty_of_ne (hs : s.shape ≠ .square) : exec .rstduty s = .next s := perform_run hw hp (if_neg hs)

/-- R136. -/
theorem exec_rstall :
    exec .rstall s = .next { s.rebuilt s.cfg.duty50 with freq := .one, shape := .square } :=
  perform_run hw hp (setDutyAndRebuild_eq _ _)

end

/-! ## Commands by their primitives -/

/-- The five primitive commands (R130). -/
inductive IsPrimitive : Instr → Prop
  | setshape (sh : Shape) : IsPrimitive (.setshape sh)
  | setfreq (n : BitVec 3) : IsPrimitive (.setfreq n)
  | adjduty (d : Direction) : IsPrimitive (.adjduty d)
  | rstduty : IsPrimitive .rstduty
  | rstall : IsPrimitive .rstall

/-- Every command performs a primitive one, and RSTALL is performed by its own code and by key '9' only (R137). -/
theorem IsCommand.exists_primitive {i : Instr} (hi : IsCommand i) :
    ∃ j, IsPrimitive j ∧ exec i = exec j ∧ (j = .rstall → i = .rstall ∨ i = .key9) := by
  cases i with
  | setshape sh => exact ⟨_, .setshape sh, rfl, nofun⟩
  | setfreq n => exact ⟨_, .setfreq n, rfl, nofun⟩
  | adjduty d => exact ⟨_, .adjduty d, rfl, nofun⟩
  | rstduty => exact ⟨_, .rstduty, rfl, nofun⟩
  | rstall => exact ⟨_, .rstall, rfl, .inl⟩
  | key0 => exact ⟨_, .rstduty, funext exec_key0, nofun⟩
  | key1 => exact ⟨_, .setfreq 1, funext exec_key1, nofun⟩
  | key2 => exact ⟨_, .setfreq 2, funext exec_key2, nofun⟩
  | key3 => exact ⟨_, .setfreq 3, funext exec_key3, nofun⟩
  | key4 => exact ⟨_, .setfreq 4, funext exec_key4, nofun⟩
  | key5 => exact ⟨_, .setfreq 5, funext exec_key5, nofun⟩
  | key6 => exact ⟨_, .setshape .sine, funext exec_key6, nofun⟩
  | key7 => exact ⟨_, .setshape .triangle, funext exec_key7, nofun⟩
  | key8 => exact ⟨_, .setshape .square, funext exec_key8, nofun⟩
  | key9 => exact ⟨_, .rstall, funext exec_key9, fun _ => .inr rfl⟩
  | keystar => exact ⟨_, .adjduty .minus, funext exec_keystar, nofun⟩
  | keyhash => exact ⟨_, .adjduty .plus, funext exec_keyhash, nofun⟩
  | reset | init _ | timerFire | tick _ | trysend _ _ | buildsine | buildsquare _ | buildsaw | buildtri =>
    obtain ⟨c, hc⟩ := hi
    cases hc

/-- R72: a command outside RUN changes nothing. -/
theorem exec_command_of_not_run {i : Instr} (hi : IsCommand i) {s : State} (hw : s.cfg.wf = true) (hp : s.phase ≠ .run) :
    exec i s = .next s := by
  have key : ∀ r, perform s (whenPhase .run s r) = .next s := fun r => by rw [whenPhase_of_ne hp, perform_ok hw]
  obtain ⟨j, hj, hij, -⟩ := hi.exists_primitive
  rw [hij]
  cases hj <;> exact key _

/-- What each primitive command does in RUN: its effect where its guard holds, and nothing where it does not (R131 to R136). -/
inductive Performs (s : State) : Instr → State → Prop
  | setshape (sh : Shape) : Performs s (.setshape sh) { s with shape := sh }
  | setfreq {n : BitVec 3} {k : FreqIndex} : FreqIndex.ofOperand n = some k → Performs s (.setfreq n) { s with freq := k }
  | setfreqIgnored {n : BitVec 3} : FreqIndex.ofOperand n = none → Performs s (.setfreq n) s
  | raise : s.shape = .square → s.duty + s.cfg.dutyStep ≤ s.cfg.dutyMax →
      Performs s (.adjduty .plus) (s.rebuilt (s.duty + s.cfg.dutyStep))
  | raiseIgnored : s.shape ≠ .square ∨ s.cfg.dutyMax < s.duty + s.cfg.dutyStep → Performs s (.adjduty .plus) s
  | lower : s.shape = .square → s.cfg.dutyMin + s.cfg.dutyStep ≤ s.duty →
      Performs s (.adjduty .minus) (s.rebuilt (s.duty - s.cfg.dutyStep))
  | lowerIgnored : s.shape ≠ .square ∨ s.duty < s.cfg.dutyMin + s.cfg.dutyStep → Performs s (.adjduty .minus) s
  | rstduty : s.shape = .square → Performs s .rstduty (s.rebuilt s.cfg.duty50)
  | rstdutyIgnored : s.shape ≠ .square → Performs s .rstduty s
  | rstall : Performs s .rstall { s.rebuilt s.cfg.duty50 with freq := .one, shape := .square }

/-- In RUN a primitive command does what `Performs` says. -/
theorem Performs.exec_eq {s t : State} {j : Instr} (h : Performs s j t) (hw : s.cfg.wf = true) (hp : s.phase = .run) :
    exec j s = .next t := by
  cases h with
  | setshape sh => exact exec_setshape hw hp sh
  | setfreq hn => exact exec_setfreq_of_some hw hp hn
  | setfreqIgnored hn => exact exec_setfreq_of_none hw hp hn
  | raise hs hle => exact exec_adjduty_plus hw hp hs hle
  | raiseIgnored hd => exact exec_adjduty_plus_ignored hw hp hd
  | lower hs hle => exact exec_adjduty_minus hw hp hs hle
  | lowerIgnored hd => exact exec_adjduty_minus_ignored hw hp hd
  | rstduty hs => exact exec_rstduty_of_square hw hp hs
  | rstdutyIgnored hs => exact exec_rstduty_of_ne hw hp hs
  | rstall => exact exec_rstall hw hp

/-- In every state the guard of a primitive command holds or does not. -/
theorem IsPrimitive.performs {j : Instr} (hj : IsPrimitive j) (s : State) : ∃ t, Performs s j t := by
  cases hj with
  | setshape sh => exact ⟨_, .setshape sh⟩
  | setfreq n =>
    cases hn : FreqIndex.ofOperand n with
    | some k => exact ⟨_, .setfreq hn⟩
    | none => exact ⟨_, .setfreqIgnored hn⟩
  | adjduty d =>
    cases d with
    | plus =>
      by_cases h : s.shape = .square ∧ s.duty + s.cfg.dutyStep ≤ s.cfg.dutyMax
      · exact ⟨_, .raise h.1 h.2⟩
      · exact ⟨_, .raiseIgnored (by rwa [not_and_or, Nat.not_le] at h)⟩
    | minus =>
      by_cases h : s.shape = .square ∧ s.cfg.dutyMin + s.cfg.dutyStep ≤ s.duty
      · exact ⟨_, .lower h.1 h.2⟩
      · exact ⟨_, .lowerIgnored (by rwa [not_and_or, Nat.not_le] at h)⟩
  | rstduty =>
    by_cases h : s.shape = .square
    · exact ⟨_, .rstduty h⟩
    · exact ⟨_, .rstdutyIgnored h⟩
  | rstall => exact ⟨_, .rstall⟩

/-- What a command can leave, whichever it is: nothing changed; or, in RUN, SHAPE or FREQ written; or the Square table rebuilt,
for a duty one step away in Square or for DUTY_50. -/
inductive CommandEffect (s : State) : State → Prop
  | ignored : CommandEffect s s
  | selected (sh : Shape) (n : FreqIndex) : s.phase = .run → CommandEffect s { s with shape := sh, freq := n }
  | raised : s.phase = .run → s.shape = .square → s.duty + s.cfg.dutyStep ≤ s.cfg.dutyMax →
      CommandEffect s (s.rebuilt (s.duty + s.cfg.dutyStep))
  | lowered : s.phase = .run → s.shape = .square → s.cfg.dutyMin + s.cfg.dutyStep ≤ s.duty →
      CommandEffect s (s.rebuilt (s.duty - s.cfg.dutyStep))
  | restored (sh : Shape) (n : FreqIndex) : s.phase = .run →
      CommandEffect s { s.rebuilt s.cfg.duty50 with shape := sh, freq := n }

/-- An effect of a command is a write of SHAPE, FREQ, DUTY and the Square table. -/
theorem CommandEffect.result {s t : State} (h : CommandEffect s t) : CommandResult s t := by cases h <;> rfl

/-- An effect of a command keeps PHASE and the dispatcher's registers. -/
theorem CommandEffect.dispatcher_kept {s t : State} (h : CommandEffect s t) :
    t.cursor = s.cursor ∧ t.tickPend = s.tickPend ∧ t.trace = s.trace ∧ t.phase = s.phase := by
  cases h <;> exact ⟨rfl, rfl, rfl, rfl⟩

/-- An effect of a command keeps the other tables, the configuration and the schedule. -/
theorem CommandEffect.others_kept {s t : State} (h : CommandEffect s t) :
    t.sine = s.sine ∧ t.tri = s.tri ∧ t.saw = s.saw ∧ t.cfg = s.cfg ∧ t.schedule = s.schedule := by
  cases h <;> exact ⟨rfl, rfl, rfl, rfl, rfl⟩

/-- A command completes with one of its effects. -/
theorem exec_command_effect {i : Instr} (hi : IsCommand i) {s : State} (hw : s.cfg.wf = true) :
    ∃ t, exec i s = .next t ∧ CommandEffect s t := by
  by_cases hp : s.phase = .run
  · obtain ⟨j, hj, hij, -⟩ := hi.exists_primitive
    obtain ⟨t, ht⟩ := hj.performs s
    refine ⟨t, by rw [hij]; exact ht.exec_eq hw hp, ?_⟩
    cases ht with
    | setshape sh => exact .selected sh s.freq hp
    | setfreq => exact .selected s.shape _ hp
    | raise hs hle => exact .raised hp hs hle
    | lower hs hle => exact .lowered hp hs hle
    | rstduty => exact .restored s.shape s.freq hp
    | rstall => exact .restored .square .one hp
    | setfreqIgnored | raiseIgnored | lowerIgnored | rstdutyIgnored => exact .ignored
  · exact ⟨s, exec_command_of_not_run hi hw hp, .ignored⟩

/-! ## Event operations where they are enabled, and where they are not -/

section
variable {s : State} (hw : s.cfg.wf = true)
include hw

/-- R220, log 11. -/
theorem exec_reset : exec .reset s = .next { State.resetOf s.cfg with schedule := s.schedule } :=
  perform_ok (t := resetState s) hw

/-- R170: bring-up has failed. -/
theorem exec_init_fail (hp : s.phase = .uninit) : exec (.init false) s = .next { s with phase := .halt } := by
  calc exec (.init false) s = perform s (whenPhase .uninit s (.ok (raiseHalt s))) := rfl
    _ = .next (raiseHalt s) := by rw [whenPhase_of_eq hp, perform_ok hw]

/-- Log 3: INIT outside UNINIT. -/
theorem exec_init_of_ne (hp : s.phase ≠ .uninit) (ok : Bool) : exec (.init ok) s = .next s := by
  calc exec (.init ok) s = perform s (whenPhase .uninit s (if ok then initBuilds s else .ok (raiseHalt s))) := rfl
    _ = .next s := by rw [whenPhase_of_ne hp, perform_ok hw]

/-- R195 in RUN. -/
theorem exec_timerFire_of_run (hp : s.phase = .run) : exec .timerFire s = .next { s with tickPend := true } :=
  perform_run hw hp rfl

/-- R195 outside RUN. -/
theorem exec_timerFire_of_ne (hp : s.phase ≠ .run) : exec .timerFire s = .next s := by
  calc exec .timerFire s = perform s (whenPhase .run s (.ok (setPending s))) := rfl
    _ = .next s := by rw [whenPhase_of_ne hp, perform_ok hw]

/-- R100: TICK where it is not enabled. -/
theorem exec_tick_of_disabled (he : s.tickEnabled = false) (rdy : Bool) : exec (.tick rdy) s = .next s := by
  calc exec (.tick rdy) s = perform s (tickOperation rdy s) := rfl
    _ = .next s := by rw [tickOperation_of_disabled he, perform_ok hw]

end

theorem tickEnabled_of_not_run {s : State} (hp : s.phase ≠ .run) : s.tickEnabled = false := by
  simp [State.tickEnabled, hp]

/-! ## Steps -/

/-- A step on an event whose operation is not enabled only takes the event off the schedule (log 3). -/
theorem step_of_not_enabled {s : State} {e : Event} {rest : List Event} (hw : s.cfg.wf = true) (hp : s.phase ≠ .run)
    (hs : s.schedule = e :: rest) (hrst : e ≠ .rst) (hinit : ∀ ok, e = .initGo ok → s.phase ≠ .uninit) :
    step s = .next (s.setSchedule rest) := by
  have hw' : (s.setSchedule rest).cfg.wf = true := hw
  have hp' : (s.setSchedule rest).phase ≠ .run := hp
  rw [step_of_cons hs]
  cases e with
  | rst => exact absurd rfl hrst
  | initGo ok => exact exec_init_of_ne hw' (hinit ok rfl) ok
  | timerEvt => exact exec_timerFire_of_ne hw' hp'
  | serviceTick rdy => exact exec_tick_of_disabled hw' (tickEnabled_of_not_run hp') rdy
  | cmd c =>
    rw [show decodeEvent (.cmd c) = decodeCmd c from rfl]
    cases hc : decodeCmd c with
    | instr i => exact exec_command_of_not_run (isCommand_of_decodeCmd hc) hw' hp'
    | reserved d => exact perform_ok hw'

/-- RESET as a step (R220). -/
theorem step_rst {s : State} {rest : List Event} (hw : s.cfg.wf = true) (hs : s.schedule = .rst :: rest) :
    step s = .next { State.resetOf s.cfg with schedule := rest } := by
  rw [step_of_cons hs]
  exact exec_reset (s := s.setSchedule rest) hw

/-- A timer event in RUN as a step (R195). -/
theorem step_timerEvt {s : State} {rest : List Event} (hw : s.cfg.wf = true) (hp : s.phase = .run)
    (hs : s.schedule = .timerEvt :: rest) : step s = .next { s with schedule := rest, tickPend := true } := by
  rw [step_of_cons hs]
  exact exec_timerFire_of_run (s := s.setSchedule rest) hw hp

/-- The service of a pending tick as a step (R101 to R106). -/
theorem step_serviceTick {s : State} {rest : List Event} {rdy : Bool} (hw : s.cfg.wf = true) (hp : s.phase = .run)
    (ht : s.tickPend = true) (hs : s.schedule = .serviceTick rdy :: rest) :
    step s = .next { s with
      schedule := rest
      cursor := s.fetchIndex + if rdy || s.cfg.advanceOnDrop then s.freq.toNat else 0
      tickPend := false
      trace := s.trace ++ [sampleEvent s s.shape s.fetchIndex rdy] } := by
  rw [step_of_cons hs]
  exact exec_tick_of_pending (s := s.setSchedule rest) hw hp ht rdy

/-- A command code as a step completes with one of a command's effects; a reserved code has none. -/
theorem step_cmd {s : State} {c : CmdCode} {rest : List Event} (hw : s.cfg.wf = true) (hs : s.schedule = .cmd c :: rest) :
    ∃ t, step s = .next t ∧ CommandEffect (s.setSchedule rest) t := by
  have hw' : (s.setSchedule rest).cfg.wf = true := hw
  rw [step_of_cons hs, show decodeEvent (.cmd c) = decodeCmd c from rfl]
  cases hc : decodeCmd c with
  | instr i => exact exec_command_effect (isCommand_of_decodeCmd hc) hw'
  | reserved d => exact ⟨_, perform_ok hw', .ignored⟩

end Sys2Proof.Machine
end

section
/-! PROOFS. The builds (42_table_builder.md) on their own and inside INIT, the LUT (20_memory.md) and the frame. -/

namespace Sys2Proof.Cfg

open Sys2Proof

/-! ## The corner cases of the sine formula (R161, U13) -/

/-- Whichever way a half goes, an integer is rounded to itself. -/
theorem round_natCast {round : ℝ → Int} (hround : ∀ x, |(round x : ℝ) - x| ≤ 1 / 2) (n : Nat) : round n = n := by
  have hreal : |((round n - n : Int) : ℝ)| < 1 := by
    push_cast
    exact lt_of_le_of_lt (hround n) (by norm_num)
  have hint : |round n - n| < 1 := by exact_mod_cast hreal
  exact sub_eq_zero.mp (Int.abs_lt_one_iff.mp hint)

/-- The formula's argument half a table further on is a full turn further on. -/
theorem sine_argument_add_half {h : Nat} (hpos : 0 < h) (i : Nat) :
    4 * Real.pi * ((i + h : Nat) : ℝ) / ((2 * h : Nat) : ℝ) = 4 * Real.pi * i / ((2 * h : Nat) : ℝ) + 2 * Real.pi := by
  have hne : (h : ℝ) ≠ 0 := by exact_mod_cast hpos.ne'
  push_cast
  field_simp
  ring

/-- Entry 0 of the formula's table is the offset. -/
theorem SineRounded.entry_zero {c : Cfg} (hr : c.SineRounded) (hpos : 0 < c.lenSine) : c.sineRom.getD 0 0 = c.sineDc := by
  obtain ⟨round, hround, hrom⟩ := hr
  have h0 := hrom 0 hpos
  rw [show (c.sineAmpl : ℝ) * Real.sin (4 * Real.pi * (0 : Nat) / c.lenSine) + c.sineDc = (c.sineDc : ℝ) by simp,
    round_natCast hround] at h0
  exact_mod_cast h0

/-- The formula's table of an even length holds two equal periods. -/
theorem SineRounded.entry_add_half {c : Cfg} (hr : c.SineRounded) {h i : Nat} (hlen : c.lenSine = 2 * h) (hi : i < h) :
    c.sineRom.getD (i + h) 0 = c.sineRom.getD i 0 := by
  obtain ⟨round, -, hrom⟩ := hr
  have hsecond := hrom (i + h) (by omega)
  rw [hlen, sine_argument_add_half (by omega), Real.sin_add_two_pi, ← hlen, ← hrom i (by omega)] at hsecond
  exact_mod_cast hsecond

end Sys2Proof.Cfg

namespace Sys2Proof.Machine

open Sys2Proof

/-! ## Tables read back -/

/-- An unmapped read faults (R53). -/
theorem lutRead_of_le {s : State} {sh : Shape} {i : Nat} (h : s.cfg.depth sh ≤ i) :
    lutRead s sh i = .error (.lutUnmapped sh i) := if_neg (Nat.not_lt.mpr h)

/-- An unmapped write faults (R53). -/
theorem lutWrite_of_le {s : State} {sh : Shape} {i : Nat} {v : Code} (h : s.cfg.depth sh ≤ i) :
    lutWrite s sh i v = .error (.lutUnmapped sh i) := if_neg (Nat.not_lt.mpr h)

/-- The unmapped addresses are those of the configuration. -/
theorem lutRead_congr_of_le {s t : State} {sh : Shape} {i : Nat} (hcfg : t.cfg = s.cfg) (h : s.cfg.depth sh ≤ i) :
    lutRead t sh i = lutRead s sh i := by rw [lutRead_of_le h, lutRead_of_le (hcfg ▸ h)]

/-- Replacing one table keeps the others, and every unmapped address. -/
theorem OtherTablesKept.setTable (s : State) (sh : Shape) (m : Memory) : OtherTablesKept s (s.setTable sh m) sh := by
  intro k i h
  by_cases hk : k = sh
  · subst hk
    exact lutRead_congr_of_le (State.setTable_cfg ..) (h.resolve_left (· rfl))
  · exact lutRead_congr (State.setTable_cfg ..) (by rw [State.setTable_table_other s m hk])

/-- Replacing one table by a canonical one within the depth keeps a state sound. -/
theorem State.Sound.setTable {s : State} (hs : s.Sound) {sh : Shape} {m : Memory} (hwf : m.wf = true)
    (hbelow : m.below (s.cfg.depth sh) = true) : (s.setTable sh m).Sound where
  cfgWf := by rw [State.setTable_cfg]; exact hs.cfgWf
  canonical k := by
    rw [State.setTable_table]
    split
    · exact hwf
    · exact hs.canonical k
  mapped k := by
    rw [State.setTable_table, State.setTable_cfg]
    split
    · subst k; exact hbelow
    · exact hs.mapped k

section
variable {t : State} {m : Memory} (hc : t.cfg.Wf)
include hc

/-- R161, read back. -/
theorem Filled.sine_entry (f : Filled m t.sine (fun i => codeOf (sineEntry t.cfg i)) 0 t.cfg.lenSine) {i : Nat}
    (hi : i < t.cfg.lenSine) : t.entry .sine i = some (sineEntry t.cfg i) :=
  Filled.entry (sh := .sine) f hi (Nat.zero_le i) (by omega) (hc.sineEntry_le i)

/-- R162, read back. -/
theorem Filled.square_entry {d : Nat} (f : Filled m t.square (fun i => codeOf (squareEntry t.cfg d i)) 0 t.cfg.lenSquare)
    {i : Nat} (hi : i < t.cfg.lenSquare) : t.entry .square i = some (squareEntry t.cfg d i) :=
  Filled.entry (sh := .square) f hi (Nat.zero_le i) (by omega) (hc.squareEntry_le d i)

/-- R163, read back. -/
theorem Filled.saw_entry (f : Filled m t.saw (fun i => codeOf (sawEntry t.cfg i)) 0 t.cfg.lenSaw) {i : Nat}
    (hi : i < t.cfg.lenSaw) : t.entry .sawtooth i = some (sawEntry t.cfg i) :=
  Filled.entry (sh := .sawtooth) f hi (Nat.zero_le i) (by omega) (hc.sawEntry_le hi)

/-- R164, the ascending segment read back. -/
theorem TriBuilt.up_entry (b : TriBuilt t.cfg m t.tri) {i : Nat} (hi : i ≤ t.cfg.triBp1) :
    t.entry .triangle i = some (triUpEntry t.cfg i) := by
  have h1 := hc.bpOrder
  have h2 := hc.bpDepth
  have hdepth : i < t.cfg.depth .triangle := show i < t.cfg.depthTri by omega
  rw [entry_of_lt hdepth, show t.table .triangle = t.tri from rfl, b.up i hi, codeOf_toNat (hc.upLe i hi)]

/-- R164, the descending segment read back. -/
theorem TriBuilt.down_entry (b : TriBuilt t.cfg m t.tri) {i : Nat} (hlow : t.cfg.triBp2 ≤ i) (hi : i < t.cfg.depthTri) :
    t.entry .triangle i = some (triDownEntry t.cfg i) := by
  have hdepth : i < t.cfg.depth .triangle := hi
  rw [entry_of_lt hdepth, show t.table .triangle = t.tri from rfl, b.down i hlow hi, codeOf_toNat (hc.triDownEntry_le hlow hi)]

end

/-! ## INIT ok -/

/-- The four tables of `t` are those of `s` after the builds, the Square table for the DUTY of `s` (R170). -/
structure InitBuilt (s t : State) : Prop where
  sine : Filled s.sine t.sine (fun i => codeOf (sineEntry s.cfg i)) 0 s.cfg.lenSine
  square : Filled s.square t.square (fun i => codeOf (squareEntry s.cfg s.duty i)) 0 s.cfg.lenSquare
  saw : Filled s.saw t.saw (fun i => codeOf (sawEntry s.cfg i)) 0 s.cfg.lenSaw
  tri : TriBuilt s.cfg s.tri t.tri

/-- R170: INIT ok in UNINIT writes the four tables and PHASE. -/
theorem exec_init_ok {s : State} (hs : s.Sound) (hp : s.phase = .uninit) :
    ∃ t, exec (.init true) s = .next t ∧
      t = { s with phase := .run, sine := t.sine, square := t.square, tri := t.tri, saw := t.saw } ∧ InitBuilt s t := by
  obtain ⟨m1, m2, m3, m4, hbuilds, f1, f2, f3, f4⟩ := initBuilds_spec (.of_wf hs.cfgWf) hs.canonical
  refine ⟨{ s with phase := .run, sine := m1, square := m2, saw := m3, tri := m4 }, ?_, rfl, ⟨f1, f2, f3, f4⟩⟩
  calc exec (.init true) s = perform s (whenPhase .uninit s (initBuilds s)) := rfl
    _ = _ := by rw [whenPhase_of_eq hp, hbuilds, perform_ok hs.cfgWf]; rfl

/-! ## The frame -/

/-- The frame is the prefix followed by the code (R79). -/
theorem frameOf_eq_append {c : Cfg} (h : c.sinkPrefix < 16) (v : Code) : frameOf c v = BitVec.ofNat 4 c.sinkPrefix ++ v := by
  have hv : v.toNat < 2 ^ 12 := v.isLt
  apply BitVec.eq_of_toNat_eq
  rw [frameOf_toNat h, BitVec.toNat_append, ← Nat.shiftLeft_add_eq_or_of_lt hv, Nat.shiftLeft_eq, BitVec.toNat_ofNat,
    Nat.mod_eq_of_lt h]

/-! ## Flat addresses -/

/-- The shape code has two bits. -/
theorem shape_ofCode_code (sh : Shape) : Shape.ofCode sh.code = sh := by cases sh <;> rfl

/-- The flat address of an index of `W_C` bits has `2 + W_C` bits, and names the table and the index (R52). -/
theorem lutAddr_spec (c : Cfg) (sh : Shape) {i : Nat} (hi : i < 2 ^ c.cursorWidth) :
    lutAddr c sh i < 2 ^ (2 + c.cursorWidth) ∧ addrSel c (lutAddr c sh i) = sh ∧ addrIdx c (lutAddr c sh i) = i := by
  have hsel : lutAddr c sh i / 2 ^ c.cursorWidth = sh.code.toNat := by
    rw [lutAddr, Nat.mul_comm, Nat.mul_add_div (by positivity), Nat.div_eq_of_lt hi, Nat.add_zero]
  refine ⟨?_, ?_, ?_⟩
  · rw [Nat.pow_add, ← Nat.div_lt_iff_lt_mul (by positivity), hsel]
    exact sh.code.isLt
  · rw [addrSel, hsel, BitVec.ofNat_toNat, BitVec.setWidth_eq, shape_ofCode_code]
  · rw [addrIdx, lutAddr, Nat.mul_comm, Nat.mul_add_mod, Nat.mod_eq_of_lt hi]

/-! ## The statements -/

/-- Settles O10: every entry INIT promises is read off the filled tables. -/
theorem initOkBuildsTablesAndRuns : Obligations.InitOkBuildsTablesAndRuns := by
  intro s hs hp
  obtain ⟨t, hexec, ht, b⟩ := exec_init_ok hs hp
  have hcfg : t.cfg = s.cfg := by rw [ht]
  have hc : t.cfg.Wf := hcfg ▸ .of_wf hs.cfgWf
  refine ⟨t, hexec, ht, ?_⟩
  rw [← hcfg]
  refine ⟨fun i hi => (hcfg ▸ b.sine).sine_entry hc hi, fun i hi => (hcfg ▸ b.square).square_entry hc hi,
    fun i hi => (hcfg ▸ b.saw).saw_entry hc hi, fun i hi => (hcfg ▸ b.tri).up_entry hc hi,
    fun i hlow hi => (hcfg ▸ b.tri).down_entry hc hlow hi, fun i hlow hi => lutRead_congr hcfg ?_,
    fun sh i hi => lutRead_congr_of_le hcfg (hcfg ▸ hi)⟩
  exact b.tri.kept i (.inl ⟨hcfg ▸ hlow, hcfg ▸ hi⟩)

/-- Settles O34: the entries are SINE_ROM's, of which the named premise speaks. -/
theorem buildSineFillsSineTable : Obligations.BuildSineFillsSineTable := by
  intro s hs
  obtain ⟨m, hbuild, hfilled⟩ := buildSine_spec (hs.canonical .sine)
  have hentry : ∀ i < s.cfg.lenSine, State.entry { s with sine := m } .sine i = some (s.cfg.sineRom.getD i 0) :=
    fun i hi => Filled.sine_entry (t := { s with sine := m }) (.of_wf hs.cfgWf) hfilled hi
  refine ⟨m, ?_, .setTable s .sine m, hentry, fun hhalf i hi => ⟨_, hentry i hi, hhalf i hi⟩⟩
  calc exec .buildsine s = perform s (buildSine s) := rfl
    _ = .next (s.setTable .sine m) := by rw [hbuild, perform_ok hs.cfgWf]

/-- Settles O35: the table's entries are SINE_ROM's, and the formula has these corner cases under every rounding. -/
theorem sineTableHoldsTwoEqualPeriods : Obligations.SineTableHoldsTwoEqualPeriods := by
  intro s h hs hr hlen
  obtain ⟨m, hexec, -, hentry, -⟩ := buildSineFillsSineTable s hs
  have hpos : 0 < s.cfg.lenSine := (Cfg.Wf.of_wf hs.cfgWf).lenPos .sine
  refine ⟨_, hexec, ?_, fun i hi => ?_⟩
  · rw [hentry 0 hpos, hr.entry_zero hpos]
  · rw [hentry (i + h) (by omega), hentry i (by omega), hr.entry_add_half hlen hi]

/-- Settles O37: the entries of the filled Sawtooth table. -/
theorem buildSawFillsSawtoothTable : Obligations.BuildSawFillsSawtoothTable := by
  intro s hs
  obtain ⟨m, hbuild, hfilled⟩ := buildSaw_spec (hs.canonical .sawtooth)
  refine ⟨m, ?_, .setTable s .sawtooth m,
    fun i hi => Filled.saw_entry (t := { s with saw := m }) (.of_wf hs.cfgWf) hfilled hi⟩
  calc exec .buildsaw s = perform s (buildSaw s) := rfl
    _ = .next (s.setTable .sawtooth m) := by rw [hbuild, perform_ok hs.cfgWf]

/-- Settles O38: the entries of the two filled segments; the gap is what `TriBuilt` keeps. -/
theorem buildTriFillsTwoSegments : Obligations.BuildTriFillsTwoSegments := by
  intro s hs
  have hc : s.cfg.Wf := .of_wf hs.cfgWf
  obtain ⟨m, hbuild, b⟩ := buildTri_spec hc (hs.canonical .triangle)
  refine ⟨m, ?_, .setTable s .triangle m, fun i hi => TriBuilt.up_entry (t := { s with tri := m }) hc b hi,
    fun i hlow hi => lutRead_congr rfl (b.kept i (.inl ⟨hlow, hi⟩)),
    fun i hlow hi => TriBuilt.down_entry (t := { s with tri := m }) hc b hlow hi⟩
  calc exec .buildtri s = perform s (buildTri s) := rfl
    _ = .next (s.setTable .triangle m) := by rw [hbuild, perform_ok hs.cfgWf]

/-- Settles O39: TRYSEND is one write of the trace, for each readiness of the sink. -/
theorem trySendAppendsSentOrDropped : Obligations.TrySendAppendsSentOrDropped := by
  intro s v hw
  have key : ∀ rdy, exec (.trysend v rdy) s = .next (trySend s v rdy).1 := fun rdy => perform_ok hw
  exact ⟨⟨key true, rfl⟩, key false, rfl⟩

/-- Settles O40: the frame is the prefix followed by the code. -/
theorem frameHoldsPrefixAndCode : Obligations.FrameHoldsPrefixAndCode := by
  intro c v hw
  have hp : c.sinkPrefix < 16 := (Cfg.Wf.of_wf hw).sinkPrefix
  refine ⟨frameOf_toNat hp v, ?_, ?_⟩
  · rw [frameOf_eq_append hp, BitVec.extractLsb'_append_eq_left, BitVec.toNat_ofNat, Nat.mod_eq_of_lt hp]
  · rw [frameOf_eq_append hp, BitVec.extractLsb'_append_eq_right]

/-- Settles O41: the laws of a memory write, for the one table that `setTable` replaces. -/
theorem lutWriteChangesOneEntry : Obligations.LutWriteChangesOneEntry := by
  intro s sh i v hs hi
  have hsound := hs.setTable (Memory.write_wf (v := v) (hs.canonical sh)) (Memory.write_below (hs.mapped sh) hi)
  have hcfg := State.setTable_cfg s sh ((s.table sh).write i v)
  refine ⟨_, lutWrite_of_lt hi, hsound, ?_, fun k j h => lutRead_congr hcfg ?_, by cases sh <;> rfl⟩
  · rw [lutRead_of_lt (by rwa [hcfg]), State.setTable_table_same, Memory.read_write_same i v (hs.canonical sh)]
  · rw [State.setTable_table]
    split
    · subst k; exact Memory.read_write_other v (h.resolve_left (· rfl))
    · rfl

/-- Settles O42: below the depth both accesses are mapped, from it on neither is. -/
theorem unmappedLutAccessFaults : Obligations.UnmappedLutAccessFaults := by
  intro s sh i v
  refine ⟨⟨fun h => ?_, lutRead_of_le⟩, fun h => ?_, lutWrite_of_le⟩
  · by_contra hlt
    rw [lutRead_of_lt (Nat.not_le.mp hlt)] at h
    cases h
  · by_contra hlt
    rw [lutWrite_of_lt (Nat.not_le.mp hlt)] at h
    cases h

/-- Settles O43: a flat address gives back its table and its index, and the check of `addrFits` comes before both accesses. -/
theorem flatAddressNamesTheEntry : Obligations.FlatAddressNamesTheEntry := by
  intro s sh i hw
  have hc : s.cfg.Wf := .of_wf hw
  refine ⟨fun hi => ?_, fun hi => ?_, fun addr haddr => ?_⟩
  · obtain ⟨hfits, hsel, hidx⟩ := lutAddr_spec s.cfg sh hi
    exact ⟨hfits, by rw [memRead_of_fits hfits, hsel, hidx], fun v => by rw [memWrite_of_fits hfits, hsel, hidx]⟩
  · have hwidth := Cfg.maxLen_add_le_iff.mp hc.cursorWidth sh
    exact ⟨by omega, Nat.lt_of_lt_of_le hi (hc.len_le_depth sh)⟩
  · have hwide : addrFits s.cfg addr = false := decide_eq_false (Nat.not_lt.mpr haddr)
    exact ⟨by rw [memRead, hwide]; rfl, fun v => by rw [memWrite, hwide]; rfl⟩

end Sys2Proof.Machine
end

section
/-! PROOFS. Reset and INIT (42_table_builder.md section 4, 60_exceptions.md, 70_reset_and_hazards.md), the timer and TICK
(40_dispatcher_tick.md). -/

namespace Sys2Proof.Machine

open Sys2Proof

/-! ## The index and the frame of a tick -/

/-- R102, as one equation. -/
theorem State.fetchIndex_eq (s : State) : s.fetchIndex = if s.cursor < s.cfg.len s.shape then s.cursor else 0 := by
  split
  · exact State.fetchIndex_of_lt ‹_›
  · exact State.fetchIndex_of_le (Nat.not_lt.mp ‹_›)

/-- The trace element of a tick does not depend on the active shape, only on the table it names. -/
theorem sampleEvent_setShape (s : State) (active sh : Shape) (i : Nat) (rdy : Bool) :
    sampleEvent { s with shape := active } sh i rdy = sampleEvent s sh i rdy :=
  congrArg (fun m : Memory => if rdy then TraceEvent.sent (frameOf s.cfg (m.read i)) else .dropped)
    (State.setShape_table s active sh)

/-! ## The statements -/

/-- Settles O8: the registers as listed, and an empty table reads 0. -/
theorem resetStateHasListedValues : Obligations.ResetStateHasListedValues := by
  refine fun c => ⟨rfl, rfl, rfl, rfl, rfl, rfl, rfl, rfl, fun sh i hi => ?_⟩
  rw [entry_of_lt hi, State.resetOf_table]
  rfl

/-- Settles O9: RESET is one write of the whole state, which the reset state already holds. -/
theorem resetLeavesResetState : Obligations.ResetLeavesResetState :=
  ⟨fun _ => exec_reset, fun c hw => exec_reset (s := State.resetOf c) hw⟩

/-- Settles O11: INIT where it is enabled and bring-up has failed, and where it is not enabled. -/
theorem initFailHaltsAndInitRunsOnlyInUninit : Obligations.InitFailHaltsAndInitRunsOnlyInUninit :=
  ⟨fun _ => exec_init_fail, fun _ ok hw hp => exec_init_of_ne hw hp ok⟩

/-- Settles O12: no operation but RESET is enabled in HALT, INIT neither. -/
theorem haltIsLeftOnlyByReset : Obligations.HaltIsLeftOnlyByReset := by
  intro s e rest hw hp hs
  refine ⟨fun he => step_of_not_enabled hw (by simp [hp]) hs he (by simp [hp]), ?_⟩
  rintro rfl
  exact step_rst hw hs

/-- Settles O13: the one write of an enabled tick, with the entry it reads and the frame's layout written out. -/
theorem tickPerformsSixSteps : Obligations.TickPerformsSixSteps := by
  intro s rdy hw hp ht
  have hc : s.cfg.Wf := .of_wf hw
  refine ⟨(s.table s.shape).read s.fetchIndex, ?_, ?_⟩
  · rw [← State.fetchIndex_eq, lutRead_of_lt (State.fetchIndex_lt_depth hc)]
  · rw [exec_tick_of_pending hw hp ht, ← State.fetchIndex_eq, ← frameOf_eq_append hc.sinkPrefix]
    simp only [sampleEvent, Bool.or_eq_true]

/-- Settles O14: TICK does nothing where it is not enabled, and appends one element where it is. -/
theorem tickIsEnabledExactlyWhenPendingInRun : Obligations.TickIsEnabledExactlyWhenPendingInRun := by
  intro s rdy hw
  refine ⟨fun h => ?_, fun ⟨hp, ht⟩ => ⟨_, _, exec_tick_of_pending hw hp ht rdy, rfl, ?_⟩⟩
  · rw [← tickEnabled_iff, Bool.not_eq_true] at h
    exact exec_tick_of_disabled hw h rdy
  · cases rdy <;> simp [sampleEvent]

/-- Settles O18: both commands leave CURSOR, and the tick that follows checks it against the length of the new shape. -/
theorem shapeSwitchRevalidatesCursorAtNextTick : Obligations.ShapeSwitchRevalidatesCursorAtNextTick := by
  intro s rdy hw hp ht
  refine ⟨fun sh => ⟨_, _, exec_setshape hw hp sh, rfl, exec_tick_of_pending (s := { s with shape := sh }) hw hp ht rdy, ?_⟩,
    _, _, exec_rstall hw hp, rfl,
    exec_tick_of_pending (s := { s.rebuilt s.cfg.duty50 with freq := .one, shape := .square }) hw hp ht rdy, rfl⟩
  exact congrArg (s.trace ++ [·]) (sampleEvent_setShape s sh sh _ rdy)

/-- Settles O19: the flag is set in RUN, set again it stays set, and outside RUN TIMER_FIRE is not enabled. -/
theorem timerFireSetsPendingFlagInRun : Obligations.TimerFireSetsPendingFlagInRun := fun s hw =>
  ⟨fun hp => ⟨exec_timerFire_of_run hw hp, exec_timerFire_of_run (s := { s with tickPend := true }) hw hp⟩,
    exec_timerFire_of_ne hw⟩

end Sys2Proof.Machine
end

section
/-! PROOFS. The commands (41_control_commands.md): each primitive command and each key, the duty's bounds, and what no command
touches. -/

namespace Sys2Proof.Cfg

open Sys2Proof

/-- The duty range is a whole number of steps (R7 item 4). -/
theorem Wf.step_dvd_range {c : Cfg} (h : c.Wf) : c.dutyStep ∣ c.dutyMax - c.dutyMin := by
  have hsplit : c.dutyMax - c.dutyMin = (c.dutyMax - c.duty50) + (c.duty50 - c.dutyMin) := by
    have := h.dutyLow
    have := h.dutyHigh
    omega
  rw [hsplit]
  exact Nat.dvd_add h.alignedHigh h.alignedLow

end Sys2Proof.Cfg

namespace Sys2Proof.Machine

open Sys2Proof

/-! ## Operands and bounds -/

/-- The operand of SETFREQ names the index of its number, where that is legal (R76). -/
theorem FreqIndex.ofOperand_toNat (n : BitVec 3) :
    (FreqIndex.ofOperand n).map FreqIndex.toNat = if 1 ≤ n.toNat ∧ n.toNat ≤ 5 then some n.toNat else none := by
  revert n
  decide

section
variable {s : State} (h : s.Inv)
include h

/-- An aligned DUTY is at the upper bound or a whole step below it. -/
theorem State.Inv.at_max_or_step_le : s.duty = s.cfg.dutyMax ∨ s.duty + s.cfg.dutyStep ≤ s.cfg.dutyMax := by
  obtain ⟨hmin, hmax⟩ := h.dutyRange
  have hdvd : s.cfg.dutyStep ∣ s.cfg.dutyMax - s.duty := by
    rw [show s.cfg.dutyMax - s.duty = (s.cfg.dutyMax - s.cfg.dutyMin) - (s.duty - s.cfg.dutyMin) by omega]
    exact Nat.dvd_sub (Cfg.Wf.of_wf h.sound.cfgWf).step_dvd_range h.dutyAligned
  rcases Nat.eq_or_lt_of_le hmax with heq | hlt
  · exact .inl heq
  · have := Nat.le_of_dvd (by omega) hdvd
    exact .inr (by omega)

/-- An aligned DUTY is at the lower bound or a whole step above it. -/
theorem State.Inv.at_min_or_step_le : s.duty = s.cfg.dutyMin ∨ s.cfg.dutyMin + s.cfg.dutyStep ≤ s.duty := by
  obtain ⟨hmin, -⟩ := h.dutyRange
  rcases Nat.eq_or_lt_of_le hmin with heq | hlt
  · exact .inl heq.symm
  · have := Nat.le_of_dvd (by omega) h.dutyAligned
    exact .inr (by omega)

end

/-! ## The dispatcher's registers -/

/-- `s` with another cursor, pending flag and trace, which no command reads (R130). -/
def State.withDispatcher (s : State) (c : Nat) (b : Bool) (l : List TraceEvent) : State :=
  { s with cursor := c, tickPend := b, trace := l }

/-- A primitive command does the same whatever the dispatcher's registers hold. -/
theorem Performs.withDispatcher {s t : State} {j : Instr} (h : Performs s j t) (c : Nat) (b : Bool) (l : List TraceEvent) :
    Performs (s.withDispatcher c b l) j (t.withDispatcher c b l) := by
  cases h with
  | setshape sh => exact .setshape sh
  | setfreq hn => exact .setfreq hn
  | setfreqIgnored hn => exact .setfreqIgnored hn
  | raise hs hle => exact .raise hs hle
  | raiseIgnored hd => exact .raiseIgnored hd
  | lower hs hle => exact .lower hs hle
  | lowerIgnored hd => exact .lowerIgnored hd
  | rstduty hs => exact .rstduty hs
  | rstdutyIgnored hs => exact .rstdutyIgnored hs
  | rstall => exact .rstall

/-! ## Off Square -/

/-- Off Square no primitive command but RSTALL touches DUTY or the Square table (R134, C5). -/
theorem Performs.off_square {s t : State} {j : Instr} (h : Performs s j t) (hs : s.shape ≠ .square) (hne : j ≠ .rstall) :
    t.duty = s.duty ∧ t.square = s.square := by
  cases h with
  | raise hsq | lower hsq | rstduty hsq => exact absurd hsq hs
  | rstall => exact absurd rfl hne
  | setshape | setfreq | setfreqIgnored | raiseIgnored | lowerIgnored | rstdutyIgnored => exact ⟨rfl, rfl⟩

/-! ## The statements -/

/-- Settles O20: the write of SHAPE, and the command's code for each of the four shapes. -/
theorem setShapeWritesShapeOnly : Obligations.SetShapeWritesShapeOnly :=
  fun _ sh hw hp => ⟨exec_setshape hw hp sh, by cases sh <;> rfl⟩

/-- Settles O21: the operand names an index exactly where its number is legal. -/
theorem setFreqWritesLegalIndexOnly : Obligations.SetFreqWritesLegalIndexOnly := by
  intro s n hw hp
  have hn := FreqIndex.ofOperand_toNat n
  refine ⟨fun h => ?_, fun h => ?_⟩
  · rw [if_pos h, Option.map_eq_some_iff] at hn
    obtain ⟨k, hk, hnat⟩ := hn
    exact ⟨k, hnat, exec_setfreq_of_some hw hp hk⟩
  · rw [if_neg h, Option.map_eq_none_iff] at hn
    exact exec_setfreq_of_none hw hp hn

/-- Settles O22: the four cases of ADJDUTY in RUN. -/
theorem adjDutyStepsAndRebuildsOrIsIgnored : Obligations.AdjDutyStepsAndRebuildsOrIsIgnored := fun _ hs hp =>
  ⟨fun hsq hle => ⟨_, exec_adjduty_plus hs.cfgWf hp hsq hle, hs.squareRebuilt rfl fun _ => rfl⟩,
    fun hsq hle => ⟨_, exec_adjduty_minus hs.cfgWf hp hsq hle, hs.squareRebuilt rfl fun _ => rfl⟩,
    exec_adjduty_plus_ignored hs.cfgWf hp, exec_adjduty_minus_ignored hs.cfgWf hp⟩

/-- Settles O23: an aligned DUTY is at a bound, where the step is ignored, or a whole step away, where clamping does nothing. -/
theorem dutyStepsClampAtTheBounds : Obligations.DutyStepsClampAtTheBounds := by
  intro s h hp hsq
  have hw := h.sound.cfgWf
  have hpos := (Cfg.Wf.of_wf hw).stepPos
  constructor
  · rcases h.at_max_or_step_le with hmax | hle
    · exact ⟨s, exec_adjduty_plus_ignored hw hp (.inr (by omega)), by omega, fun _ => rfl⟩
    · exact ⟨_, exec_adjduty_plus hw hp hsq hle, (Nat.min_eq_left hle).symm, fun hmax => by omega⟩
  · rcases h.at_min_or_step_le with hmin | hle
    · exact ⟨s, exec_adjduty_minus_ignored hw hp (.inr (by omega)), by omega, fun _ => rfl⟩
    · have hclamp : s.cfg.dutyMin ≤ s.duty - s.cfg.dutyStep := by omega
      exact ⟨_, exec_adjduty_minus hw hp hsq hle, (Nat.max_eq_left hclamp).symm, fun hmin => by omega⟩

/-- Settles O24: RSTDUTY in Square and off it. -/
theorem rstDutyRestoresFiftyPercentInSquare : Obligations.RstDutyRestoresFiftyPercentInSquare := fun _ hs hp =>
  ⟨fun hsq => ⟨_, exec_rstduty_of_square hs.cfgWf hp hsq, hs.squareRebuilt rfl fun _ => rfl⟩,
    exec_rstduty_of_ne hs.cfgWf hp⟩

/-- Settles O25: RSTALL is one write of four fields, the table among them rebuilt. -/
theorem rstAllRestoresDefaults : Obligations.RstAllRestoresDefaults := fun _ hs hp =>
  ⟨_, exec_rstall hs.cfgWf hp, hs.squareRebuilt rfl fun k => by cases k <;> rfl⟩

/-- Settles O27: the keys are SETFREQ with the operands 1 to 5. -/
theorem frequencyKeysSelectPresets : Obligations.FrequencyKeysSelectPresets := by
  intro s hw hp
  simp only [exec_key1, exec_key2, exec_key3, exec_key4, exec_key5]
  exact ⟨⟨exec_setfreq_of_some hw hp rfl, rfl⟩, ⟨exec_setfreq_of_some hw hp rfl, rfl⟩, ⟨exec_setfreq_of_some hw hp rfl, rfl⟩,
    ⟨exec_setfreq_of_some hw hp rfl, rfl⟩, exec_setfreq_of_some hw hp rfl, rfl⟩

/-- Settles O28: the keys are SETSHAPE with the three shapes. -/
theorem shapeKeysSelectShapes : Obligations.ShapeKeysSelectShapes := by
  intro s hw hp
  rw [exec_key6, exec_key7, exec_key8]
  exact ⟨exec_setshape hw hp .sine, exec_setshape hw hp .triangle, exec_setshape hw hp .square⟩

/-- Settles O29: the keys are RSTDUTY and RSTALL. -/
theorem resetKeysRestoreDutyAndDefaults : Obligations.ResetKeysRestoreDutyAndDefaults := by
  intro s hs hp
  obtain ⟨hsquare, hother⟩ := rstDutyRestoresFiftyPercentInSquare s hs hp
  rw [exec_key0, exec_key9]
  exact ⟨hsquare, hother, rstAllRestoresDefaults s hs hp⟩

/-- Settles O30: the keys are ADJDUTY, and an aligned DUTY off a bound is a whole step away from it. -/
theorem dutyKeysStepWithinBounds : Obligations.DutyKeysStepWithinBounds := by
  intro s h hp
  have hpos := (Cfg.Wf.of_wf h.sound.cfgWf).stepPos
  obtain ⟨hup, hdown, hupIgnored, hdownIgnored⟩ := adjDutyStepsAndRebuildsOrIsIgnored s h.sound hp
  rw [exec_keystar, exec_keyhash]
  exact ⟨fun hsq hne => hdown hsq (h.at_min_or_step_le.resolve_left hne),
    fun hc => hdownIgnored (hc.imp_right fun hmin => by omega),
    fun hsq hne => hup hsq (h.at_max_or_step_le.resolve_left hne),
    fun hc => hupIgnored (hc.imp_right fun hmax => by omega)⟩

/-- Settles O31: `cmd_ready` says RUN, and no command is enabled elsewhere. -/
theorem commandsOutsideRunChangeNothing : Obligations.CommandsOutsideRunChangeNothing := by
  intro i s hi hw
  have hready : s.cmdReady = true ↔ s.phase = .run := decide_eq_true_iff
  refine ⟨hready, fun h => exec_command_of_not_run hi hw fun hp => ?_⟩
  rw [hready.mpr hp] at h
  cases h

/-- Settles O32: a command keeps the dispatcher's registers, and does the same to the rest whatever they hold. -/
theorem commandsNeitherReadNorWriteDispatcherState : Obligations.CommandsNeitherReadNorWriteDispatcherState := by
  intro i s hi hw
  obtain ⟨t, ht, heffect⟩ := exec_command_effect hi hw
  obtain ⟨hcursor, hpend, htrace, hphase⟩ := heffect.dispatcher_kept
  refine ⟨t, ht, hcursor, hpend, htrace, hphase, fun c b l => ?_⟩
  by_cases hp : s.phase = .run
  · obtain ⟨j, hj, hij, -⟩ := hi.exists_primitive
    obtain ⟨u, hu⟩ := hj.performs s
    rw [hij] at ht ⊢
    obtain rfl : u = t := by rw [hu.exec_eq hw hp] at ht; cases ht; rfl
    exact (hu.withDispatcher c b l).exec_eq hw hp
  · rw [exec_command_of_not_run hi hw hp] at ht; cases ht
    exact exec_command_of_not_run hi (s := s.withDispatcher c b l) hw hp

/-- Settles O33: of the events only a command could write DUTY or the Square table, and off Square only RSTALL does. -/
theorem dutyIsStickyAcrossOtherShapes : Obligations.DutyIsStickyAcrossOtherShapes := by
  intro s e rest hw hp hne hs hreset hrstall hkey9
  have hw' : (s.setSchedule rest).cfg.wf = true := hw
  cases e with
  | rst => exact absurd rfl hreset
  | initGo ok =>
    have hninit : (s.setSchedule rest).phase ≠ .uninit := by simp [hp]
    exact ⟨_, (step_of_cons hs).trans (exec_init_of_ne hw' hninit ok), rfl, rfl⟩
  | timerEvt => exact ⟨_, step_timerEvt hw hp hs, rfl, rfl⟩
  | serviceTick rdy =>
    cases ht : s.tickPend with
    | true => exact ⟨_, step_serviceTick hw hp ht hs, rfl, rfl⟩
    | false =>
      have hdisabled : (s.setSchedule rest).tickEnabled = false := tickEnabled_of_not_pending ht
      exact ⟨_, (step_of_cons hs).trans (exec_tick_of_disabled hw' hdisabled rdy), rfl, rfl⟩
  | cmd c =>
    rw [step_of_cons hs]
    cases hc : decodeEvent (.cmd c) with
    | reserved d => exact ⟨_, perform_ok hw', rfl, rfl⟩
    | instr i =>
      rw [hc] at hrstall hkey9
      obtain ⟨j, hj, hij, hall⟩ := (isCommand_of_decodeCmd hc).exists_primitive
      have hj' : j ≠ .rstall := fun h => (hall h).elim (fun hi => hrstall (by rw [hi])) fun hi => hkey9 (by rw [hi])
      obtain ⟨t, ht⟩ := hj.performs (s.setSchedule rest)
      exact ⟨t, by rw [runDecoded, hij]; exact ht.exec_eq hw' hp, ht.off_square hne hj'⟩

end Sys2Proof.Machine
end

section
/-! PROOFS. What one step can do, said once: it completes with one of the effects of its event. From it come the agents' frames,
the runs that never stop, and what RUN keeps (60_exceptions.md, 00_scope.md section 5, 10_state.md section 3). -/

namespace Sys2Proof.Machine

open Sys2Proof

/-! ## The effects of an event -/

/-- The state after INIT's builds, which enter RUN (R170). -/
def State.initialised (s : State) (sine square tri saw : Memory) : State :=
  { s with phase := .run, sine := sine, square := square, tri := tri, saw := saw }

/-- The state after an enabled TICK (R101 to R106). -/
def State.ticked (s : State) (rdy : Bool) : State :=
  { s with
    cursor := s.fetchIndex + if rdy || s.cfg.advanceOnDrop then s.freq.toNat else 0
    tickPend := false
    trace := s.trace ++ [sampleEvent s s.shape s.fetchIndex rdy] }

/-- Everything an event can do to the state from which it was taken off the schedule. -/
inductive EventEffect (s : State) : Event → State → Prop
  | reset : EventEffect s .rst { State.resetOf s.cfg with schedule := s.schedule }
  | notEnabled (e : Event) : e ≠ .rst → EventEffect s e s
  | initFailed : s.phase = .uninit → EventEffect s (.initGo false) { s with phase := .halt }
  | initDone (sine square tri saw : Memory) : s.phase = .uninit →
      (s.Sound → InitBuilt s (s.initialised sine square tri saw)) →
      EventEffect s (.initGo true) (s.initialised sine square tri saw)
  | fired : s.phase = .run → EventEffect s .timerEvt { s with tickPend := true }
  | ticked (rdy : Bool) : s.phase = .run → s.tickPend = true → EventEffect s (.serviceTick rdy) (s.ticked rdy)
  | command (c : CmdCode) {t : State} : CommandEffect s t → EventEffect s (.cmd c) t

/-- INIT's builds complete in every state of a well-formed configuration, and write the tables and PHASE only. -/
theorem initBuilds_total {s : State} (hc : s.cfg.Wf) :
    ∃ sine square tri saw, initBuilds s = .ok (s.initialised sine square tri saw) := by
  obtain ⟨m1, e1⟩ := buildSine_total s
  obtain ⟨m2, e2⟩ := buildSquare_total s.duty { s with sine := m1 }
  obtain ⟨m3, e3⟩ := buildSaw_total { s with sine := m1, square := m2 }
  obtain ⟨m4, e4⟩ := buildTri_total (s := { s with sine := m1, square := m2, saw := m3 }) hc
  exact ⟨m1, m2, m4, m3, by simp only [initBuilds, e1, e2, e3, e4]; rfl⟩

/-- INIT ok in UNINIT completes in every state, and builds the tables of a sound one (R170). -/
theorem exec_init_ok_total {s : State} (hw : s.cfg.wf = true) (hp : s.phase = .uninit) :
    ∃ sine square tri saw, exec (.init true) s = .next (s.initialised sine square tri saw) ∧
      (s.Sound → InitBuilt s (s.initialised sine square tri saw)) := by
  by_cases hs : s.Sound
  · obtain ⟨t, hexec, ht, b⟩ := exec_init_ok hs hp
    exact ⟨t.sine, t.square, t.tri, t.saw, hexec.trans (congrArg _ ht), fun _ => ⟨b.sine, b.square, b.saw, b.tri⟩⟩
  · obtain ⟨sine, square, tri, saw, hbuilds⟩ := initBuilds_total (.of_wf hw)
    refine ⟨sine, square, tri, saw, ?_, fun h => absurd h hs⟩
    calc exec (.init true) s = perform s (whenPhase .uninit s (initBuilds s)) := rfl
      _ = .next _ := by rw [whenPhase_of_eq hp, hbuilds, perform_ok hw]

/-- A step completes with an effect of the event it takes. -/
theorem step_effect {s : State} {e : Event} {rest : List Event} (hw : s.cfg.wf = true) (hs : s.schedule = e :: rest) :
    ∃ t, step s = .next t ∧ EventEffect (s.setSchedule rest) e t := by
  have hw' : (s.setSchedule rest).cfg.wf = true := hw
  cases e with
  | rst => exact ⟨_, step_rst hw hs, .reset⟩
  | initGo ok =>
    rw [step_of_cons hs]
    by_cases hp : (s.setSchedule rest).phase = .uninit
    · cases ok with
      | false => exact ⟨_, exec_init_fail hw' hp, .initFailed hp⟩
      | true =>
        obtain ⟨sine, square, tri, saw, hexec, hbuilt⟩ := exec_init_ok_total hw' hp
        exact ⟨_, hexec, .initDone sine square tri saw hp hbuilt⟩
    · exact ⟨_, exec_init_of_ne hw' hp ok, .notEnabled _ nofun⟩
  | timerEvt =>
    by_cases hp : s.phase = .run
    · exact ⟨_, step_timerEvt hw hp hs, .fired hp⟩
    · exact ⟨_, step_of_not_enabled hw hp hs nofun nofun, .notEnabled _ nofun⟩
  | serviceTick rdy =>
    cases he : (s.setSchedule rest).tickEnabled with
    | true =>
      obtain ⟨hp, ht⟩ := tickEnabled_iff.mp he
      exact ⟨_, step_serviceTick hw hp ht hs, .ticked rdy hp ht⟩
    | false => exact ⟨_, (step_of_cons hs).trans (exec_tick_of_disabled hw' he rdy), .notEnabled _ nofun⟩
  | cmd c =>
    obtain ⟨t, ht, heffect⟩ := step_cmd hw hs
    exact ⟨t, ht, .command c heffect⟩

/-- A completed step idled, or took the head of the schedule with one of its effects. -/
theorem step_inv {s t : State} (h : step s = .next t) :
    s.cfg.wf = true ∧
      (s.schedule = [] ∧ t = s ∨ ∃ e rest, s.schedule = e :: rest ∧ EventEffect (s.setSchedule rest) e t) := by
  have hw : s.cfg.wf = true := by
    by_contra hn
    rw [step_of_not_wf (Bool.not_eq_true _ ▸ hn)] at h
    cases h
  refine ⟨hw, ?_⟩
  cases hs : s.schedule with
  | nil =>
    rw [step_of_empty hw hs] at h
    exact .inl ⟨rfl, by cases h; rfl⟩
  | cons e rest =>
    obtain ⟨u, hu, heffect⟩ := step_effect hw hs
    obtain rfl : u = t := by rw [hu] at h; cases h; rfl
    exact .inr ⟨e, rest, rfl, heffect⟩

/-- Under a well-formed configuration a step completes. -/
theorem step_total {s : State} (hw : s.cfg.wf = true) : ∃ t, step s = .next t := by
  cases hs : s.schedule with
  | nil => exact ⟨s, step_of_empty hw hs⟩
  | cons e rest =>
    obtain ⟨t, ht, -⟩ := step_effect hw hs
    exact ⟨t, ht⟩

/-! ## What an effect keeps -/

/-- An effect keeps the configuration and the schedule. -/
theorem EventEffect.kept {s t : State} {e : Event} (h : EventEffect s e t) : t.cfg = s.cfg ∧ t.schedule = s.schedule := by
  cases h with
  | command c hcommand =>
    obtain ⟨-, -, -, hcfg, hsched⟩ := hcommand.others_kept
    exact ⟨hcfg, hsched⟩
  | reset | notEnabled | initFailed | initDone | fired | ticked => exact ⟨rfl, rfl⟩

/-- Without RESET an effect in RUN keeps PHASE and the tables other than Square (invariant (d) of 10_state.md section 3). -/
theorem EventEffect.run_kept {s t : State} {e : Event} (h : EventEffect s e t) (hp : s.phase = .run) (he : e ≠ .rst) :
    t.phase = .run ∧ t.sine = s.sine ∧ t.tri = s.tri ∧ t.saw = s.saw := by
  cases h with
  | reset => exact absurd rfl he
  | initFailed hu | initDone _ _ _ _ hu => rw [hp] at hu; cases hu
  | notEnabled | fired | ticked => exact ⟨hp, rfl, rfl, rfl⟩
  | command c hcommand =>
    obtain ⟨-, -, -, hphase⟩ := hcommand.dispatcher_kept
    obtain ⟨hsine, htri, hsaw, -, -⟩ := hcommand.others_kept
    exact ⟨hphase.trans hp, hsine, htri, hsaw⟩

/-- The samples a state owes already: one for a pending tick (R195). -/
def State.owed (s : State) : Nat := if s.tickPend then 1 else 0

theorem State.owed_congr {s t : State} (h : t.tickPend = s.tickPend) : t.owed = s.owed := by simp only [State.owed, h]

/-- Without RESET an effect appends to the trace, and what it appends is paid for by a timer event or by the pending tick. -/
theorem EventEffect.trace_grows {s t : State} {e : Event} (h : EventEffect s e t) (he : e ≠ .rst) :
    ∃ new, t.trace = s.trace ++ new ∧ new.length + t.owed ≤ [e].count .timerEvt + s.owed := by
  have silent : t.trace = s.trace → t.owed ≤ [e].count .timerEvt + s.owed →
      ∃ new, t.trace = s.trace ++ new ∧ new.length + t.owed ≤ [e].count .timerEvt + s.owed :=
    fun htrace hle => ⟨[], by rw [htrace, List.append_nil], by simpa using hle⟩
  cases h with
  | reset => exact absurd rfl he
  | notEnabled | initFailed | initDone => exact silent rfl (Nat.le_add_left _ _)
  | fired => exact silent rfl (Nat.le_add_right 1 s.owed)
  | ticked rdy _ ht => exact ⟨_, rfl, by simp [State.owed, State.ticked, ht]⟩
  | command c hcommand =>
    obtain ⟨-, hpend, htrace, -⟩ := hcommand.dispatcher_kept
    exact silent htrace (by rw [State.owed_congr hpend]; exact Nat.le_add_left _ _)

/-- A completed step keeps the configuration and takes one event off the schedule. -/
theorem step_kept {s t : State} (h : step s = .next t) : t.cfg = s.cfg ∧ t.schedule = s.schedule.drop 1 := by
  obtain ⟨-, ⟨hs, rfl⟩ | ⟨e, rest, hs, heffect⟩⟩ := step_inv h
  · exact ⟨rfl, by rw [hs]; rfl⟩
  · rw [hs]
    exact heffect.kept

/-! ## Runs -/

/-- The first step of a completed run. -/
theorem steps_succ_inv {k : Nat} {s u : State} (h : steps (k + 1) s = .next u) :
    ∃ t, step s = .next t ∧ steps k t = .next u := by
  simp only [steps] at h
  cases ht : step s with
  | next t => rw [ht] at h; exact ⟨t, rfl, h⟩
  | fault f => rw [ht] at h; cases h
  | refused r => rw [ht] at h; cases h

/-- A run is its first step and the rest. -/
theorem steps_succ {k : Nat} {s t : State} (h : step s = .next t) : steps (k + 1) s = steps k t := by
  simp only [steps, h]

/-- Under a well-formed configuration every run completes and consumes one event per step. -/
theorem steps_total {s : State} (hw : s.cfg.wf = true) (k : Nat) :
    ∃ t, steps k s = .next t ∧ t.schedule = s.schedule.drop k := by
  induction k generalizing s with
  | zero => exact ⟨s, rfl, rfl⟩
  | succ k ih =>
    obtain ⟨t, ht⟩ := step_total hw
    obtain ⟨hcfg, hsched⟩ := step_kept ht
    obtain ⟨u, hu, hdrop⟩ := ih (s := t) (hcfg ▸ hw)
    exact ⟨u, (steps_succ ht).trans hu, by rw [hdrop, hsched, List.drop_drop, Nat.add_comm]⟩

/-- Each step of a run without RESET pays for what it appends, and the pending tick is carried over. -/
theorem steps_trace_grows (k : Nat) {s t : State} (hrst : ∀ e ∈ s.schedule, e ≠ .rst) (h : steps k s = .next t) :
    ∃ new, t.trace = s.trace ++ new ∧ new.length + t.owed ≤ (s.schedule.take k).count .timerEvt + s.owed := by
  induction k generalizing s with
  | zero => cases h; exact ⟨[], (List.append_nil _).symm, by simp⟩
  | succ k ih =>
    obtain ⟨u, hu, hrun⟩ := steps_succ_inv h
    obtain ⟨-, ⟨hs, rfl⟩ | ⟨e, rest, hs, heffect⟩⟩ := step_inv hu
    · obtain ⟨new, htrace, hcount⟩ := ih hrst hrun
      exact ⟨new, htrace, by simpa [hs] using hcount⟩
    · rw [hs, List.forall_mem_cons] at hrst
      have hsched : u.schedule = rest := heffect.kept.2
      obtain ⟨first, hfirst, hpaid⟩ := heffect.trace_grows hrst.1
      obtain ⟨new, htrace, hcount⟩ := ih (by rw [hsched]; exact hrst.2) hrun
      have hsplit : (s.schedule.take (k + 1)).count .timerEvt = [e].count .timerEvt + (rest.take k).count .timerEvt := by
        rw [hs, List.take_succ_cons, ← List.singleton_append, List.count_append]
      refine ⟨first ++ new, by rw [htrace, hfirst, List.append_assoc]; rfl, ?_⟩
      rw [State.owed_congr (State.setSchedule_tickPend s rest)] at hpaid
      rw [hsched] at hcount
      rw [hsplit, List.length_append]
      omega

/-- Under a well-formed configuration every operation completes: those with an encoding as steps, the others as fills of a
table or one write of the trace. -/
theorem exec_total {s : State} (hw : s.cfg.wf = true) (i : Instr) : ∃ t, exec i s = .next t := by
  cases he : encode i with
  | some e =>
    have hs : (s.setSchedule (e :: s.schedule)).schedule = e :: s.schedule := rfl
    obtain ⟨t, ht, -⟩ := step_effect (s := s.setSchedule (e :: s.schedule)) hw hs
    rw [step_of_cons hs, decodeEvent_of_encode he] at ht
    exact ⟨t, ht⟩
  | none =>
    have key : ∀ {r : Except Fault State}, (∃ t, r = .ok t) → ∃ t, perform s r = .next t :=
      fun ⟨t, ht⟩ => ⟨t, by rw [ht, perform_ok hw]⟩
    cases i with
    | trysend v rdy => exact ⟨_, perform_ok hw⟩
    | buildsine => exact key ((buildSine_total s).imp' _ fun _ => id)
    | buildsquare t => exact key ((buildSquare_total t s).imp' _ fun _ => id)
    | buildsaw => exact key ((buildSaw_total s).imp' _ fun _ => id)
    | buildtri => exact key ((buildTri_total (.of_wf hw)).imp' _ fun _ => id)
    | _ => cases he

/-! ## The statements -/

/-- Settles O44: a well-formed configuration completes, an ill-formed one is refused before any table is touched. -/
theorem noOperationFaults : Obligations.NoOperationFaults := by
  refine fun i s => ⟨fun f hf => ?_, fun hw => exec_total hw i⟩
  cases hw : s.cfg.wf with
  | true =>
    obtain ⟨t, ht⟩ := exec_total hw i
    rw [ht] at hf; cases hf
  | false => rw [exec_of_not_wf i hw] at hf; cases hf

/-- Settles O48: every run of a well-formed configuration completes. -/
theorem runsFromResetNeverStop : Obligations.RunsFromResetNeverStop :=
  fun c events k hw => steps_total (s := { State.resetOf c with schedule := events }) hw k

/-- Settles O50: the effects, agent by agent. -/
theorem agentsWriteOnlyTheirOwnState : Obligations.AgentsWriteOnlyTheirOwnState := by
  intro s t e rest hs h
  obtain ⟨-, ⟨hnil, -⟩ | ⟨e', rest', hs', heffect⟩⟩ := step_inv h
  · rw [hs] at hnil; cases hnil
  · rw [hs] at hs'; cases hs'
    cases heffect with
    | reset => exact ⟨nofun, nofun, nofun, fun _ hne => absurd rfl hne, rfl, rfl⟩
    | notEnabled => exact ⟨fun _ => rfl, fun _ => rfl, fun _ => rfl, fun _ _ => rfl, rfl, rfl⟩
    | initFailed | initDone => exact ⟨nofun, nofun, nofun, fun _ _ => rfl, rfl, rfl⟩
    | fired => exact ⟨fun _ => rfl, nofun, nofun, nofun, rfl, rfl⟩
    | ticked => exact ⟨nofun, fun _ => rfl, nofun, nofun, rfl, rfl⟩
    | command c hcommand =>
      obtain ⟨-, -, -, hcfg, hsched⟩ := hcommand.others_kept
      exact ⟨nofun, nofun, fun _ => hcommand.result, nofun, hcfg, hsched⟩

/-- Settles O51: a step without RESET keeps the four together with the absence of RESET from the schedule. -/
theorem otherTablesImmutableInRun : Obligations.OtherTablesImmutableInRun := by
  intro k s t hp hrst h
  induction k generalizing s with
  | zero => cases h; exact ⟨hp, rfl, rfl, rfl⟩
  | succ k ih =>
    obtain ⟨u, hu, hrun⟩ := steps_succ_inv h
    obtain ⟨-, ⟨hs, rfl⟩ | ⟨e, rest, hs, heffect⟩⟩ := step_inv hu
    · exact ih u hp hrst hrun
    · rw [hs, List.forall_mem_cons] at hrst
      obtain ⟨hphase, hsine, htri, hsaw⟩ := heffect.run_kept hp hrst.1
      obtain ⟨hp', hsine', htri', hsaw'⟩ := ih u hphase (by rw [heffect.kept.2]; exact hrst.2) hrun
      exact ⟨hp', hsine'.trans hsine, htri'.trans htri, hsaw'.trans hsaw⟩

/-- Settles O52: the samples a run owes at its end are those `steps_trace_grows` counts. -/
theorem samplesNeverOutnumberTimerEvents : Obligations.SamplesNeverOutnumberTimerEvents :=
  fun k _ _ hrst h => steps_trace_grows k hrst h

end Sys2Proof.Machine
end

section
/-! PROOFS. The invariant (10_state.md): it holds at RESET, every effect of an event keeps it, so it holds in every reachable
state; and the register ranges that follow. -/

namespace Sys2Proof.Machine

open Sys2Proof

/-! ## What the parts of the invariant depend on -/

/-- Soundness depends on the configuration and the tables. -/
theorem State.Sound.congr {s t : State} (h : s.Sound) (hcfg : t.cfg = s.cfg) (htable : ∀ k, t.table k = s.table k) :
    t.Sound where
  cfgWf := hcfg ▸ h.cfgWf
  canonical k := htable k ▸ h.canonical k
  mapped k := by rw [htable, hcfg]; exact h.mapped k

/-- An entry depends on the configuration and its table. -/
theorem State.entry_congr {s t : State} (hcfg : t.cfg = s.cfg) (htable : ∀ k, t.table k = s.table k) (sh : Shape) (i : Nat) :
    t.entry sh i = s.entry sh i := by
  simp only [State.entry, lutRead, hcfg, htable]

/-- That the tables are built depends on the configuration, the tables and DUTY. -/
theorem State.Built.congr {s t : State} (h : s.Built) (hcfg : t.cfg = s.cfg) (htable : ∀ k, t.table k = s.table k)
    (hduty : t.duty = s.duty) : t.Built := by
  obtain ⟨hsine, hsquare, hsaw, hup, hgap, hdown⟩ := h
  constructor <;> simp only [State.entry_congr hcfg htable, hcfg, hduty] <;> assumption

/-- In RUN a state with the same tables and DUTY meets the invariant if its cursor and its trace are in order. -/
theorem State.Inv.of_tables {s t : State} (h : s.Inv) (hcfg : t.cfg = s.cfg) (htable : ∀ k, t.table k = s.table k)
    (hduty : t.duty = s.duty) (hp : s.phase = .run) (hpt : t.phase = .run) (hcursor : t.cursor ≤ t.cfg.maxLen + 4)
    (hzero : t.cfg.advanceOnDrop = true → (t.cursor = 0 ↔ t.trace = []))
    (hframe : ∀ f, TraceEvent.sent f ∈ t.trace → f.toNat / 4096 = t.cfg.sinkPrefix) : t.Inv where
  sound := h.sound.congr hcfg htable
  dutyRange := by rw [hcfg, hduty]; exact h.dutyRange
  dutyAligned := by rw [hcfg, hduty]; exact h.dutyAligned
  cursorBound := hcursor
  cursorZero := hzero
  framePrefix := hframe
  idle hn := absurd hpt hn
  built _ := (h.built hp).congr hcfg htable hduty

/-- In RUN a state that differs in TICK_PEND and the command registers other than DUTY meets the invariant. -/
theorem State.Inv.of_registers {s : State} (h : s.Inv) (hp : s.phase = .run) (sh : Shape) (n : FreqIndex) (b : Bool) :
    ({ s with shape := sh, freq := n, tickPend := b } : State).Inv :=
  h.of_tables (t := { s with shape := sh, freq := n, tickPend := b }) rfl (fun k => by cases k <;> rfl) rfl hp hp
    h.cursorBound h.cursorZero h.framePrefix

/-- What is scheduled is no concern of the invariant. -/
theorem State.Inv.setSchedule {s : State} (h : s.Inv) (l : List Event) : (s.setSchedule l).Inv where
  sound := h.sound.congr rfl (State.setSchedule_table s l)
  dutyRange := h.dutyRange
  dutyAligned := h.dutyAligned
  cursorBound := h.cursorBound
  cursorZero := h.cursorZero
  framePrefix := h.framePrefix
  idle hn := (congrArg (State.setSchedule · l) (h.idle hn) :)
  built hp := (h.built hp).congr rfl (State.setSchedule_table s l) rfl

/-! ## RESET and INIT -/

/-- The reset state meets the invariant, whatever is scheduled (R34). -/
theorem resetOf_inv {c : Cfg} (hw : c.wf = true) (l : List Event) : State.Inv { State.resetOf c with schedule := l } := by
  have hc : c.Wf := .of_wf hw
  have htable := State.resetOf_table c
  exact {
    sound := State.Sound.congr (s := State.resetOf c) ⟨hw, fun k => by rw [htable]; rfl, fun k => by rw [htable]; rfl⟩ rfl
      (State.setSchedule_table (State.resetOf c) l)
    dutyRange := ⟨hc.dutyLow, hc.dutyHigh⟩
    dutyAligned := hc.alignedLow
    cursorBound := Nat.zero_le _
    cursorZero := fun _ => ⟨fun _ => rfl, fun _ => rfl⟩
    framePrefix := nofun
    idle := fun _ => rfl
    built := nofun }

/-- Outside RUN the Triangle table is as RESET leaves it. -/
theorem State.Inv.tri_eq_nil {s : State} (h : s.Inv) (hp : s.phase ≠ .run) : s.tri = [] := congrArg State.tri (h.idle hp)

/-- INIT fail keeps the invariant: PHASE is all it writes. -/
theorem State.Inv.initFailed {s : State} (h : s.Inv) (hp : s.phase = .uninit) :
    ({ s with phase := .halt } : State).Inv where
  sound := h.sound.congr rfl (State.setPhase_table s .halt)
  dutyRange := h.dutyRange
  dutyAligned := h.dutyAligned
  cursorBound := h.cursorBound
  cursorZero := h.cursorZero
  framePrefix := h.framePrefix
  idle _ := congrArg (State.setPhase · .halt) (h.idle (by simp [hp]))
  built := nofun

/-- INIT ok keeps the invariant: the four tables are filled, and the triangle's gap is still empty. -/
theorem State.Inv.initDone {s : State} (h : s.Inv) (hp : s.phase = .uninit) {sine square tri saw : Memory}
    (b : InitBuilt s (s.initialised sine square tri saw)) : (s.initialised sine square tri saw).Inv := by
  have hc : (s.initialised sine square tri saw).cfg.Wf := .of_wf h.sound.cfgWf
  exact {
    sound := {
      cfgWf := h.sound.cfgWf
      canonical := fun
        | .sine => b.sine.wf
        | .square => b.square.wf
        | .triangle => b.tri.wf
        | .sawtooth => b.saw.wf
      mapped := fun
        | .sine => b.sine.below (Nat.zero_add _).le (h.sound.mapped .sine)
        | .square => b.square.below (Nat.zero_add _).le (h.sound.mapped .square)
        | .triangle => b.tri.below (h.sound.mapped .triangle)
        | .sawtooth => b.saw.below (Nat.zero_add _).le (h.sound.mapped .sawtooth) }
    dutyRange := h.dutyRange
    dutyAligned := h.dutyAligned
    cursorBound := h.cursorBound
    cursorZero := h.cursorZero
    framePrefix := h.framePrefix
    idle := fun hn => absurd rfl hn
    built := fun _ => {
      sine := fun _ hi => Filled.sine_entry hc b.sine hi
      square := fun _ hi => Filled.square_entry hc b.square hi
      saw := fun _ hi => Filled.saw_entry hc b.saw hi
      triUp := fun _ hi => TriBuilt.up_entry hc b.tri hi
      triGap := fun i hlow hi => by
        have hdepth : i < (s.initialised sine square tri saw).cfg.depth .triangle := Nat.lt_trans hi hc.bpDepth
        have hread : tri.read i = s.tri.read i := b.tri.kept i (.inl ⟨hlow, hi⟩)
        rw [h.tri_eq_nil (by simp [hp])] at hread
        rw [entry_of_lt hdepth, show (s.initialised sine square tri saw).table .triangle = tri from rfl, hread]
        rfl
      triDown := fun _ hlow hi => TriBuilt.down_entry hc b.tri hlow hi } }

/-! ## TICK -/

/-- A trace element carries the prefix in its upper four bits (R79). -/
theorem sampleEvent_prefix {s : State} (hc : s.cfg.Wf) {sh : Shape} {i : Nat} {rdy : Bool} {f : Frame}
    (h : sampleEvent s sh i rdy = .sent f) : f.toNat / 4096 = s.cfg.sinkPrefix := by
  cases rdy with
  | false => cases h
  | true =>
    cases h
    have hcode := ((s.table sh).read i).isLt
    rw [frameOf_toNat hc.sinkPrefix]
    omega

/-- TICK keeps the invariant: CURSOR advances by at most 5 from an index below the length (R109). -/
theorem State.Inv.ticked {s : State} (h : s.Inv) (hp : s.phase = .run) (rdy : Bool) : (s.ticked rdy).Inv := by
  have hc : s.cfg.Wf := .of_wf h.sound.cfgWf
  have hindex := State.fetchIndex_lt_len hc
  have hlen := s.cfg.len_le_maxLen s.shape
  obtain ⟨hn1, hn5⟩ := s.freq.toNat_range
  refine h.of_tables (t := s.ticked rdy) rfl (fun k => by cases k <;> rfl) rfl hp hp ?_ (fun hadv => ?_) fun f hf => ?_
  · show (s.fetchIndex + if rdy || s.cfg.advanceOnDrop then s.freq.toNat else 0) ≤ s.cfg.maxLen + 4
    split <;> omega
  · have hadv : s.cfg.advanceOnDrop = true := hadv
    have hmoved : (s.ticked rdy).cursor ≠ 0 := by simp only [State.ticked, hadv, Bool.or_true, if_true]; omega
    have hsampled : (s.ticked rdy).trace ≠ [] := List.append_ne_nil_of_right_ne_nil _ (List.cons_ne_nil _ _)
    exact iff_of_false hmoved hsampled
  · rcases List.mem_append.mp hf with hold | hnew
    · exact h.framePrefix f hold
    · exact sampleEvent_prefix hc (List.mem_singleton.mp hnew).symm

/-! ## Commands -/

/-- A rebuild for a legal duty keeps the invariant in RUN, whatever becomes of SHAPE and FREQ. -/
theorem State.Inv.rebuilt {s : State} (h : s.Inv) (hp : s.phase = .run) {d : Nat} (hmin : s.cfg.dutyMin ≤ d)
    (hmax : d ≤ s.cfg.dutyMax) (hdvd : s.cfg.dutyStep ∣ d - s.cfg.dutyMin) (sh : Shape) (n : FreqIndex) :
    ({ s.rebuilt d with shape := sh, freq := n } : State).Inv := by
  have hfilled := squareTable_filled s.cfg d (h.sound.canonical .square)
  have hbuilt := h.built hp
  exact {
    sound := {
      cfgWf := h.sound.cfgWf
      canonical := fun
        | .square => hfilled.wf
        | .sine => h.sound.canonical .sine
        | .triangle => h.sound.canonical .triangle
        | .sawtooth => h.sound.canonical .sawtooth
      mapped := fun
        | .square => hfilled.below (Nat.zero_add _).le (h.sound.mapped .square)
        | .sine => h.sound.mapped .sine
        | .triangle => h.sound.mapped .triangle
        | .sawtooth => h.sound.mapped .sawtooth }
    dutyRange := ⟨hmin, hmax⟩
    dutyAligned := hdvd
    cursorBound := h.cursorBound
    cursorZero := h.cursorZero
    framePrefix := h.framePrefix
    idle := fun hn => absurd hp hn
    built := fun _ => {
      sine := hbuilt.sine
      square := fun _ hi => Filled.square_entry (t := { s.rebuilt d with shape := sh, freq := n })
        (.of_wf h.sound.cfgWf) hfilled hi
      saw := hbuilt.saw
      triUp := hbuilt.triUp
      triGap := hbuilt.triGap
      triDown := hbuilt.triDown } }

/-- Every effect of a command keeps the invariant: the duty it rebuilds for is legal. -/
theorem State.Inv.command {s t : State} (h : s.Inv) (heffect : CommandEffect s t) : t.Inv := by
  have hc : s.cfg.Wf := .of_wf h.sound.cfgWf
  obtain ⟨hmin, hmax⟩ := h.dutyRange
  cases heffect with
  | ignored => exact h
  | selected sh n hp => exact h.of_registers hp sh n s.tickPend
  | raised hp _ hle =>
    refine h.rebuilt hp (by omega) hle ?_ s.shape s.freq
    rw [Nat.sub_add_comm hmin]
    exact Nat.dvd_add h.dutyAligned (dvd_refl _)
  | lowered hp _ hle =>
    refine h.rebuilt hp (by omega) (by omega) ?_ s.shape s.freq
    rw [Nat.sub_right_comm]
    exact Nat.dvd_sub h.dutyAligned (dvd_refl _)
  | restored sh n hp => exact h.rebuilt hp hc.dutyLow hc.dutyHigh hc.alignedLow sh n

/-! ## Steps and runs -/

/-- Every effect of an event keeps the invariant. -/
theorem State.Inv.of_effect {s t : State} {e : Event} (h : s.Inv) (heffect : EventEffect s e t) : t.Inv := by
  cases heffect with
  | reset => exact resetOf_inv h.sound.cfgWf s.schedule
  | notEnabled => exact h
  | initFailed hp => exact h.initFailed hp
  | initDone _ _ _ _ hp hbuilt => exact h.initDone hp (hbuilt h.sound)
  | fired hp => exact h.of_registers hp s.shape s.freq true
  | ticked rdy hp => exact h.ticked hp rdy
  | command c hcommand => exact h.command hcommand

/-- A step keeps the invariant. -/
theorem State.Inv.of_step {s t : State} (h : s.Inv) (hstep : step s = .next t) : t.Inv := by
  obtain ⟨-, ⟨-, rfl⟩ | ⟨e, rest, -, heffect⟩⟩ := step_inv hstep
  · exact h
  · exact (h.setSchedule rest).of_effect heffect

/-- Every reachable state meets the invariant, and carries the configuration it started with. -/
theorem Reachable.inv {c : Cfg} {s : State} (hw : c.wf = true) (h : Reachable c s) : s.Inv ∧ s.cfg = c := by
  obtain ⟨events, k, hrun⟩ := h
  refine steps_keep (P := fun t => t.Inv ∧ t.cfg = c) (fun t u ht hstep => ?_) ⟨resetOf_inv hw events, rfl⟩ hrun
  exact ⟨ht.1.of_step hstep, (step_kept hstep).1.trans ht.2⟩

/-! ## The statements -/

/-- Settles O45: the reset state has empty tables, DUTY_50, a zero cursor and an empty trace. -/
theorem resetStateMeetsInvariant : Obligations.ResetStateMeetsInvariant :=
  ⟨fun _ l hw => resetOf_inv hw l, resetOf_inv (c := Cfg.illustrative) (by decide) []⟩

/-- Settles O46: a step has one of its event's effects, and each keeps the invariant. -/
theorem stepKeepsInvariant : Obligations.StepKeepsInvariant := fun _ _ h hstep => h.of_step hstep

/-- Settles O47: the invariant holds at RESET and every step keeps it. -/
theorem reachableStatesMeetInvariant : Obligations.ReachableStatesMeetInvariant := fun _ _ hw h => h.inv hw

/-- Settles O49: the ranges are the invariant's, and the widths hold their ends; DUTY and DUTY_50 are both whole steps above
DUTY_MIN. -/
theorem registersStayInTheirLegalRanges : Obligations.RegistersStayInTheirLegalRanges := by
  intro c s hw hreach
  obtain ⟨h, rfl⟩ := hreach.inv hw
  have hc : s.cfg.Wf := .of_wf hw
  obtain ⟨hmin, hmax⟩ := h.dutyRange
  obtain ⟨hn1, hn5⟩ := s.freq.toNat_range
  have hcongr : s.duty ≡ s.cfg.duty50 [MOD s.cfg.dutyStep] :=
    ((Nat.modEq_iff_dvd' hmin).mpr h.dutyAligned).symm.trans ((Nat.modEq_iff_dvd' hc.dutyLow).mpr hc.alignedLow)
  have hdutyFits : max s.cfg.dutyMax s.cfg.lenSquare < 2 ^ s.cfg.dutyWidth := (leastWidth_spec _).1
  have hcursor := h.cursorBound
  have hcursorFits := hc.cursorWidth
  exact ⟨hmin, hmax, hcongr, by omega, hn1, hn5, hcursor, by omega⟩

end Sys2Proof.Machine
end

section
/-! PROOFS. Successive ticks (40_dispatcher_tick.md section 5): the fetch index as an iterated function, its period, and the
entries sent. -/

namespace Sys2Proof.Machine

open Sys2Proof

/-! ## The index sequence -/

/-- The index fetched after `c`, in a table of length `len` at step `n` (R102, R105). -/
def nextIndex (len n c : Nat) : Nat := boundCheck len (c + n)

/-- The ticks of a pass are the fewest whose steps reach the end of the table (R110). -/
theorem passTicks_spec {len n : Nat} (hn : 1 ≤ n) :
    len ≤ passTicks len n * n ∧ passTicks len n * n < len + n := by
  have hdiv := Nat.div_add_mod (len + n - 1) n
  have hmod := Nat.mod_lt (len + n - 1) hn
  rw [Nat.mul_comm] at hdiv
  unfold passTicks
  omega

/-- From index 0 the `j`-th index is `(j mod k) · n`, for `k` the ticks of a pass (R110). -/
theorem nextIndex_iterate_zero {len n : Nat} (hlen : 1 ≤ len) (hn : 1 ≤ n) (j : Nat) :
    (nextIndex len n)^[j] 0 = j % passTicks len n * n := by
  obtain ⟨hreach, hfewest⟩ := passTicks_spec (len := len) hn
  have hk : 0 < passTicks len n := Nat.pos_of_mul_pos_right (Nat.lt_of_lt_of_le hlen hreach)
  induction j with
  | zero => simp
  | succ j ih =>
    rw [Function.iterate_succ_apply', ih, ← Nat.mod_add_mod j, nextIndex, ← Nat.add_one_mul]
    have hmod : j % passTicks len n + 1 ≤ passTicks len n := Nat.mod_lt j hk
    generalize j % passTicks len n = r at hmod
    rcases Nat.lt_or_eq_of_le hmod with hinside | hlast
    · have hnext : (r + 1 + 1) * n ≤ passTicks len n * n := Nat.mul_le_mul_right n hinside
      rw [Nat.add_one_mul] at hnext
      rw [Nat.mod_eq_of_lt hinside]
      exact boundCheck_of_lt (by omega)
    · rw [hlast, Nat.mod_self, Nat.zero_mul]
      exact boundCheck_of_le hreach

/-- The index is 0 again exactly after whole passes. -/
theorem mod_mul_eq_zero_iff {k n j : Nat} (hn : 1 ≤ n) : j % k * n = 0 ↔ k ∣ j := by
  rw [Nat.mul_eq_zero, or_iff_left (by omega), Nat.dvd_iff_mod_eq_zero]

/-- From inside the table the index advances by `n` while it stays inside. -/
theorem nextIndex_iterate_of_lt {len n c : Nat} (j : Nat) (h : c + j * n < len) : (nextIndex len n)^[j] c = c + j * n := by
  induction j with
  | zero => simp
  | succ j ih =>
    rw [Nat.succ_mul] at h ⊢
    rw [Function.iterate_succ_apply', ih (by omega), nextIndex, boundCheck_of_lt (by omega), Nat.add_assoc]

/-- Past the last index inside the table the next one is 0. -/
theorem nextIndex_iterate_pass {len n c : Nat} (j : Nat) (hc : c < len) (h : c + (j - 1) * n < len) :
    (nextIndex len n)^[j] c = if c + j * n < len then c + j * n else 0 := by
  split
  · exact nextIndex_iterate_of_lt j ‹_›
  · rename_i hpast
    cases j with
    | zero => exact absurd (by simpa using hc) hpast
    | succ j =>
      rw [Nat.succ_mul] at hpast
      rw [Function.iterate_succ_apply', nextIndex_iterate_of_lt j h]
      exact boundCheck_of_le (by omega)

/-! ## Ticks on end -/

/-- A timer event and its service, from RUN: one tick (R82). -/
theorem steps_tick {s : State} {rdy : Bool} {rest : List Event} (hw : s.cfg.wf = true) (hp : s.phase = .run)
    (hs : s.schedule = .timerEvt :: .serviceTick rdy :: rest) : steps 2 s = .next ((s.setSchedule rest).ticked rdy) := by
  rw [steps_succ (step_timerEvt hw hp hs)]
  have hservice := step_serviceTick (s := { s with schedule := .serviceTick rdy :: rest, tickPend := true }) hw hp rfl rfl
  rw [steps_succ hservice]
  rfl

/-- Successive timer events and their services are successive ticks. -/
theorem steps_tickEvents (rdys : List Bool) {s : State} {rest : List Event} (hw : s.cfg.wf = true) (hp : s.phase = .run)
    (hs : s.schedule = tickEvents rdys ++ rest) :
    steps (2 * rdys.length) s = .next (rdys.foldl State.ticked (s.setSchedule rest)) := by
  induction rdys generalizing s with
  | nil =>
    have hs : s.schedule = rest := hs
    rw [← hs]
    rfl
  | cons rdy rdys ih =>
    have hfirst : steps 2 s = .next ((s.setSchedule (tickEvents rdys ++ rest)).ticked rdy) := steps_tick hw hp hs
    have hothers := ih (s := (s.setSchedule (tickEvents rdys ++ rest)).ticked rdy) hw hp rfl
    rw [List.length_cons, Nat.mul_succ, Nat.add_comm]
    exact steps_add hfirst hothers

/-- A tick keeps SHAPE, FREQ, the configuration and the schedule. -/
theorem foldl_ticked_kept (rdys : List Bool) (s : State) :
    (rdys.foldl State.ticked s).shape = s.shape ∧ (rdys.foldl State.ticked s).freq = s.freq ∧
      (rdys.foldl State.ticked s).cfg = s.cfg ∧ (rdys.foldl State.ticked s).schedule = s.schedule := by
  induction rdys generalizing s with
  | nil => exact ⟨rfl, rfl, rfl, rfl⟩
  | cons rdy rdys ih => exact ih (s.ticked rdy)

/-- With ADVANCE_ON_DROP a tick moves on to the next index, the sink ready or not (R105). -/
theorem State.ticked_fetchIndex {s : State} (hadv : s.cfg.advanceOnDrop = true) (rdy : Bool) :
    (s.ticked rdy).fetchIndex = nextIndex (s.cfg.len s.shape) s.freq.toNat s.fetchIndex := by
  have hcursor : (s.ticked rdy).cursor = s.fetchIndex + s.freq.toNat := by
    simp only [State.ticked, hadv, Bool.or_true, if_true]
  rw [State.fetchIndex, hcursor]
  rfl

/-- With ADVANCE_ON_DROP the fetch indices of successive ticks are the iterates of `nextIndex`. -/
theorem foldl_ticked_fetchIndex (rdys : List Bool) {s : State} (hadv : s.cfg.advanceOnDrop = true) :
    (rdys.foldl State.ticked s).fetchIndex = (nextIndex (s.cfg.len s.shape) s.freq.toNat)^[rdys.length] s.fetchIndex := by
  induction rdys generalizing s with
  | nil => rfl
  | cons rdy rdys ih =>
    rw [List.length_cons, Function.iterate_succ_apply, ← State.ticked_fetchIndex hadv rdy]
    exact ih hadv

/-- What successive ticks append to the trace, the `j`-th at the `j`-th index. -/
def played (s : State) (rdys : List Bool) : List TraceEvent :=
  rdys.mapIdx fun j rdy => sampleEvent s s.shape ((nextIndex (s.cfg.len s.shape) s.freq.toNat)^[j] s.fetchIndex) rdy

/-- The first sample, then those of the state after the first tick. -/
theorem played_cons {s : State} (hadv : s.cfg.advanceOnDrop = true) (rdy : Bool) (rdys : List Bool) :
    played s (rdy :: rdys) = sampleEvent s s.shape s.fetchIndex rdy :: played (s.ticked rdy) rdys := by
  simp only [played, List.mapIdx_cons, Function.iterate_succ_apply, ← State.ticked_fetchIndex hadv rdy]
  rfl

/-- The entry a tick sends from is of the tables it started with: no tick writes one. -/
theorem foldl_ticked_trace (rdys : List Bool) {s : State} (hadv : s.cfg.advanceOnDrop = true) :
    (rdys.foldl State.ticked s).trace = s.trace ++ played s rdys := by
  induction rdys generalizing s with
  | nil => exact (List.append_nil _).symm
  | cons rdy rdys ih =>
    rw [played_cons hadv]
    calc (rdys.foldl State.ticked (s.ticked rdy)).trace = (s.ticked rdy).trace ++ played (s.ticked rdy) rdys := ih hadv
      _ = _ := List.append_assoc _ [_] _

/-- The `j`-th sample of a run of ticks. -/
theorem played_getElem? (s : State) (rdys : List Bool) {j : Nat} (h : j < rdys.length) :
    (played s rdys)[j]? = some (sampleEvent s s.shape
      ((nextIndex (s.cfg.len s.shape) s.freq.toNat)^[j] s.fetchIndex) rdys[j]) := by
  rw [played, List.getElem?_mapIdx, List.getElem?_eq_getElem h]
  rfl

/-! ## The statements -/

/-- Settles O53: the iterates of `nextIndex` from 0 have the period `k`, the least number of steps that reaches the
end. -/
theorem indexSequenceHasCeilPeriod : Obligations.IndexSequenceHasCeilPeriod := by
  intro s rdys rest h hp hadv hzero hs
  have hc : s.cfg.Wf := .of_wf h.sound.cfgWf
  have hn := s.freq.toNat_range.1
  obtain ⟨hshape, hfreq, hcfg, hsched⟩ := foldl_ticked_kept rdys (s.setSchedule rest)
  obtain ⟨hreach, hfewest⟩ := passTicks_spec (len := s.cfg.len s.shape) hn
  have hindex : (rdys.foldl State.ticked (s.setSchedule rest)).fetchIndex
      = rdys.length % passTicks (s.cfg.len s.shape) s.freq.toNat * s.freq.toNat := by
    rw [← nextIndex_iterate_zero (hc.lenPos _) hn, ← hzero]
    exact foldl_ticked_fetchIndex rdys (s := s.setSchedule rest) hadv
  have hinside := State.fetchIndex_lt_len (s := rdys.foldl State.ticked (s.setSchedule rest)) (hcfg ▸ hc)
  rw [hcfg, hshape] at hinside
  exact ⟨_, steps_tickEvents rdys h.sound.cfgWf hp hs, hsched, hshape, hfreq, hindex, hinside,
    hindex ▸ mod_mul_eq_zero_iff hn, hreach, hfewest⟩

/-- Settles O54: the iterates of `nextIndex` from inside the table, up to the first one past its end. -/
theorem passFromInsideTheTableEndsAtZero : Obligations.PassFromInsideTheTableEndsAtZero := by
  intro s rdys rest h hp hadv hs hlast
  refine ⟨_, steps_tickEvents rdys h.sound.cfgWf hp hs, ?_⟩
  rw [foldl_ticked_fetchIndex rdys (s := s.setSchedule rest) hadv]
  exact nextIndex_iterate_pass _ (State.fetchIndex_lt_len (.of_wf h.sound.cfgWf)) hlast

/-- Settles O55: the `j`-th sample is of the `j`-th index, whatever became of the samples before. -/
theorem ticksPlayTheTableThrough : Obligations.TicksPlayTheTableThrough := by
  intro s rdys rest h hp hadv hzero hs
  have hc : s.cfg.Wf := .of_wf h.sound.cfgWf
  refine ⟨_, played s rdys, steps_tickEvents rdys h.sound.cfgWf hp hs,
    foldl_ticked_trace rdys (s := s.setSchedule rest) hadv, List.length_mapIdx, fun j hj => ?_⟩
  rw [played_getElem? s rdys hj, hzero, nextIndex_iterate_zero (hc.lenPos _) s.freq.toNat_range.1]

end Sys2Proof.Machine
end

section
/-! PROOFS. One clock period (60_exceptions.md section 3): RESET before everything, the tick before the command. -/

namespace Sys2Proof.Machine

open Sys2Proof

/-- The events of a clock period after RESET's: the timer event, the dispatcher's turn, the command. -/
def ClockPeriod.requests (p : ClockPeriod) : List Event :=
  (if p.timerEvt then [.timerEvt] else []) ++ .serviceTick p.sinkReady :: p.cmd.toList.map .cmd

theorem ClockPeriod.events_eq (p : ClockPeriod) : p.events = (if p.rst then [.rst] else []) ++ p.requests := by
  simp [ClockPeriod.events, ClockPeriod.requests]

/-- None of them is RESET or INIT. -/
theorem ClockPeriod.requests_ne {p : ClockPeriod} {e : Event} (he : e ∈ p.requests) : e ≠ .rst ∧ ∀ ok, e ≠ .initGo ok := by
  simp only [ClockPeriod.requests, List.mem_append, List.mem_ite_nil_right, List.mem_cons, List.not_mem_nil, or_false,
    List.mem_map] at he
  rcases he with ⟨-, rfl⟩ | rfl | ⟨c, -, rfl⟩ <;> exact ⟨nofun, nofun⟩

/-- Outside RUN events other than RESET and INIT are only taken off the schedule. -/
theorem steps_of_not_enabled (l : List Event) {s : State} {rest : List Event} (hw : s.cfg.wf = true) (hp : s.phase ≠ .run)
    (hl : ∀ e ∈ l, e ≠ .rst ∧ ∀ ok, e ≠ .initGo ok) (hs : s.schedule = l ++ rest) :
    steps l.length s = .next (s.setSchedule rest) := by
  induction l generalizing s with
  | nil =>
    have hs : s.schedule = rest := hs
    rw [← hs]
    rfl
  | cons e l ih =>
    obtain ⟨⟨hrst, hinit⟩, hothers⟩ := List.forall_mem_cons.mp hl
    have hfirst := step_of_not_enabled hw hp hs hrst fun ok h => absurd h (hinit ok)
    rw [List.length_cons, steps_succ hfirst]
    exact ih (s := s.setSchedule (l ++ rest)) hw hp hothers rfl

/-- The command of a clock period, if there is one, leaves the dispatcher's registers and the trace. -/
theorem steps_command (c : Option CmdCode) {s : State} {rest : List Event} (hw : s.cfg.wf = true)
    (hs : s.schedule = c.toList.map .cmd ++ rest) :
    ∃ t, steps (c.toList.map Event.cmd).length s = .next t ∧ t.schedule = rest ∧ t.tickPend = s.tickPend ∧ t.trace = s.trace := by
  cases c with
  | none => exact ⟨s, rfl, hs, rfl, rfl⟩
  | some c =>
    obtain ⟨t, ht, heffect⟩ := step_cmd hw hs
    obtain ⟨-, hpend, htrace, -⟩ := heffect.dispatcher_kept
    obtain ⟨-, -, -, -, hsched⟩ := heffect.others_kept
    exact ⟨t, steps_succ ht, hsched, hpend, htrace⟩

/-- The timer event of a clock period, if there is one, leaves a tick pending, which was pending otherwise. -/
theorem steps_timer {fires : Bool} {s : State} {rest : List Event} (hw : s.cfg.wf = true) (hp : s.phase = .run)
    (ht : s.tickPend = true ∨ fires = true) (hs : s.schedule = (if fires then [.timerEvt] else []) ++ rest) :
    steps (if fires then [Event.timerEvt] else []).length s = .next { s with schedule := rest, tickPend := true } := by
  cases fires with
  | true => exact steps_succ (step_timerEvt hw hp hs)
  | false =>
    have hs : s.schedule = rest := hs
    have hpend : s.tickPend = true := ht.resolve_right nofun
    have hself : ({ s with schedule := rest, tickPend := true } : State) = s := by rw [← hs, ← hpend]
    rw [hself]
    rfl

/-- Settles O56: RESET leaves a state in which the rest of the period is not enabled; without it the tick is serviced from the
state at the period's start, and the command that follows leaves the trace. -/
theorem clockPeriodServicesTickBeforeCommand : Obligations.ClockPeriodServicesTickBeforeCommand := by
  intro s p rest hw hs
  rw [ClockPeriod.events_eq] at hs ⊢
  refine ⟨fun hrst => ?_, fun hrst hp ht => ?_⟩
  · rw [hrst] at hs ⊢
    exact (steps_succ (step_rst hw hs)).trans (steps_of_not_enabled p.requests
      (s := { State.resetOf s.cfg with schedule := p.requests ++ rest }) hw nofun (fun _ => ClockPeriod.requests_ne) rfl)
  · have hs : s.schedule = (if p.timerEvt then [.timerEvt] else [])
        ++ (.serviceTick p.sinkReady :: (p.cmd.toList.map .cmd ++ rest)) := by
      rw [hs, hrst]
      simp [ClockPeriod.requests]
    have htimer := steps_timer hw hp ht hs
    have htick := step_serviceTick (s := { s with
      schedule := .serviceTick p.sinkReady :: (p.cmd.toList.map .cmd ++ rest), tickPend := true }) hw hp rfl rfl
    obtain ⟨t, hcmd, hsched, hpend, htrace⟩ :=
      steps_command p.cmd (s := (s.setSchedule (p.cmd.toList.map .cmd ++ rest)).ticked p.sinkReady) hw rfl
    refine ⟨t, ?_, hsched, hpend, htrace⟩
    rw [hrst, ClockPeriod.requests, if_neg Bool.false_ne_true, List.nil_append, List.length_append, List.length_cons]
    exact steps_add htimer ((steps_succ htick).trans hcmd)

end Sys2Proof.Machine
end
